-- ==== Sys2Proof/Config.lean ====
section
/-! DEFINITION. The parameters of 00_scope.md R6. The model takes them as its argument `P`; where it is
left out it is `Config.hardware`, the values of R6's third column (log 1).
The one thing the spec leaves free is the order in which the machine and the host move (20_memory.md
R66), here the events of an unending interleaving and a constant without a value for them (log 4). -/

namespace Sys2Proof

/-- The implementation parameters (00_scope.md R6). -/
structure Params where
  /-- `REG_W`: width of A, B and C in bits (D1). -/
  regW : Nat
  /-- `CELL_W`: width of one raw program value in bits. -/
  cellW : Nat
  /-- `PROG_CAP_RAW`: capacity of the program store in raw cells (D4). -/
  progCapRaw : Nat
  /-- `PC_W`: width of the program counter in bits (D24). -/
  pcW : Nat
  /-- `OUT_CAP`: capacity of the output buffer in entries (D9). -/
  outCap : Nat
  /-- `OUT_W`: width of one output entry in bits. -/
  outW : Nat
  /-- `HOST_W`: width of a host register word in bits (D12). -/
  hostW : Nat
  /-- `STEP_W`: width of the step counter and the step limit in bits (D11). -/
  stepW : Nat
  deriving DecidableEq, Repr

/-- `PROG_CAP`, the capacity in instructions, is `PROG_CAP_RAW / 2` (R6). -/
abbrev Params.progCap (P : Params) : Nat := P.progCapRaw / 2

/-- The constraints R6 puts on the parameters, and its "values 0..7" of the two 3-bit widths. -/
structure Params.Legal (P : Params) : Prop where
  /-- `REG_W >= 64`. -/
  reg : 64 ≤ P.regW
  /-- `PROG_CAP_RAW` is even. -/
  progEven : P.progCapRaw % 2 = 0
  /-- `1 <= PROG_CAP_RAW`. -/
  progLow : 1 ≤ P.progCapRaw
  /-- `PROG_CAP_RAW <= 65535`. -/
  progHigh : P.progCapRaw ≤ 65535
  /-- `1 <= OUT_CAP`. -/
  outLow : 1 ≤ P.outCap
  /-- `OUT_CAP <= 65535`. -/
  outHigh : P.outCap ≤ 65535
  /-- `2^PC_W > PROG_CAP`. -/
  pcHoldsEnd : P.progCap < 2 ^ P.pcW
  /-- `2^PC_W > 3`. -/
  pcHoldsTarget : 3 < 2 ^ P.pcW
  /-- `CELL_W` holds the values 0..7. -/
  cellHolds : 3 ≤ P.cellW
  /-- `OUT_W` holds the values 0..7. -/
  outHolds : 3 ≤ P.outW

/-- "the value this hardware takes" (R6). -/
abbrev Config.hardware : Params where
  regW := 64
  cellW := 3
  progCapRaw := 64
  pcW := 6
  outCap := 256
  outW := 3
  hostW := 64
  stepW := 64

namespace Machine

/-- What happens next, in the schedule of log 4 (20_memory.md R66; 70_reset_and_hazards.md R190).
A host address is any natural number (log 11). -/
inductive Event (P : Params := Config.hardware) where
  /-- The machine moves. -/
  | machine
  /-- The host reads the register at `addr`. -/
  | read (addr : Nat)
  /-- The host writes `w` to the register at `addr`. -/
  | write (addr : Nat) (w : BitVec P.hostW)
  /-- Reset is asserted. -/
  | reset
  deriving DecidableEq, Repr, Inhabited

end Machine

/-- FREE VALUE: the events of an unending interleaving, one for each natural number (20_memory.md R66; log
4). Nothing is known of it, so what is proved of a run that takes its events holds for every interleaving. -/
opaque Config.schedule (P : Params) : Nat → Machine.Event P

end Sys2Proof
end

