-- ==== Sys2Proof/Word.lean ====
section
/-! DEFINITION. The word types of the RMI, each with the width that the parameters give it (00_scope.md
R6), and the readings of a pattern (R8). -/

namespace Sys2Proof

/-- A register's pattern, `REG_W` bits (R6, R8). -/
abbrev Word (P : Params := Config.hardware) := BitVec P.regW

/-- A host register word, `HOST_W` bits (R6). -/
abbrev HostWord (P : Params := Config.hardware) := BitVec P.hostW

/-- The step counter and the step limit, `STEP_W` bits (R6). -/
abbrev StepWord (P : Params := Config.hardware) := BitVec P.stepW

/-- An instruction index as the program counter holds it, `PC_W` bits (R6). -/
abbrev Pc (P : Params := Config.hardware) := BitVec P.pcW

/-- The value of a program cell, `CELL_W` bits (R6). -/
abbrev CellValue (P : Params := Config.hardware) := BitVec P.cellW

/-- An output entry, `OUT_W` bits (R6). -/
abbrev OutValue (P : Params := Config.hardware) := BitVec P.outW

/-- A field of an instruction, 3 bits: an opcode or a raw operand, 0..7. The instruction format fixes
this width (30_encoding.md R83); it is no parameter. -/
abbrev Raw := BitVec 3

/-- A 16-bit index (`DEC_IDX`, 10_state.md R28; `OUT_INDEX`, R31). -/
abbrev Index16 := BitVec 16

/-- An instruction word with the layout of 30_encoding.md R82: op in [5:3], raw in [2:0]. -/
abbrev InsnWord := BitVec 6

/-- `sint(v)` (R8): the integer a pattern denotes in two's complement. -/
abbrev sint {w : Nat} (v : BitVec w) : Int := v.toInt

/-- `bits_W(n)` (R8): the two's-complement pattern of `n`. -/
abbrev bits (w : Nat) (n : Int) : BitVec w := BitVec.ofInt w n

/-- `zext_W(v)` (R8). -/
abbrev zext (w : Nat) {n : Nat} (v : BitVec n) : BitVec w := v.setWidth w

/-- `sext_W(v)` (R8). -/
abbrev sext (w : Nat) {n : Nat} (v : BitVec n) : BitVec w := v.signExtend w

end Sys2Proof
end

