-- ==== Sys2Proof/Syntax.lean ====
section
/-! DEFINITION. The instructions of spec/opcode_table.json, their operands, and the raw program cells
they are written in (30_encoding.md R80 to R89; 10_state.md R20, R26, R28). -/

namespace Sys2Proof

/-- The three general registers (10_state.md R20). -/
inductive Reg where
  | A
  | B
  | C
  deriving DecidableEq, Repr

/-- A combo operand: "either `Immediate(0..7)` or `RegisterRef(A|B|C)`" (30_encoding.md R89).
A combo immediate is 0..3; WellFormed says so. -/
inductive Operand where
  | imm (raw : Raw)
  | reg (r : Reg)
  deriving DecidableEq, Repr

/-- The eight instructions, in the order of 30_encoding.md R85.
The three literal instructions carry their raw operand 0..7 (R87, R88). -/
inductive Instr where
  | shiftRightA (v : Operand)
  | xorImmediateIntoB (raw : Raw)
  | truncateIntoB (v : Operand)
  | jumpIfANonZero (raw : Raw)
  | xorBWithC (raw : Raw)
  | emit (v : Operand)
  | shiftRightB (v : Operand)
  | shiftRightC (v : Operand)
  deriving DecidableEq, Repr

/-- One raw cell of the program store (10_state.md R26): `bad` marks a cell whose host write carried
a value outside 0..7, and then `value` is 0. -/
structure Cell (P : Params := Config.hardware) where
  value : CellValue P
  bad : Bool
  deriving DecidableEq, Repr

/-- Why a pair of cells is no instruction (30_encoding.md R91). -/
inductive DecodeError where
  /-- The opcode cell is bad. -/
  | invalidOpcode
  /-- The operand cell is bad, or the raw operand is 7 on a combo opcode. -/
  | invalidOperand
  deriving DecidableEq, Repr

/-- `DEC_CODE` (10_state.md R28; 30_encoding.md R95), in the order of its codes 0..5. -/
inductive DecCode where
  | notDecoded
  | valid
  | malformedProgram
  | invalidOperand
  | invalidOpcode
  | programTooLong
  deriving DecidableEq, Repr

end Sys2Proof
end

