-- ==== Sys2Proof/WellFormed.lean ====
section
/-! DEFINITION. Which instructions the encoding admits (30_encoding.md R87 to R91).
The only check is on a combo immediate: raw 4..6 name registers and 7 is illegal, so it is 0..3. -/

namespace Sys2Proof

/-- A combo operand's immediate is 0..3 (30_encoding.md R89). -/
def Operand.wellFormed : Operand → Bool
  | .imm raw => raw.toNat ≤ 3
  | .reg _ => true

/-- An instruction is well formed when its combo operand, if it has one, is; every literal 0..7 is
legal (30_encoding.md R90). -/
def Instr.wellFormed : Instr → Bool
  | .shiftRightA v => v.wellFormed
  | .xorImmediateIntoB _ => true
  | .truncateIntoB v => v.wellFormed
  | .jumpIfANonZero _ => true
  | .xorBWithC _ => true
  | .emit v => v.wellFormed
  | .shiftRightB v => v.wellFormed
  | .shiftRightC v => v.wellFormed

/-- The check as a proposition, the spelling the statements use. -/
abbrev Instr.WellFormed (i : Instr) : Prop := i.wellFormed = true

end Sys2Proof
end

