-- ==== Sys2Proof/Decode.lean ====
section
/-! DEFINITION. The program decoder (30_encoding.md R81 to R101) and the encoder written from the same
tables. Decoding is total: it gives an instruction or names the error of R91. -/

namespace Sys2Proof

variable {P : Params}

/-- A combo operand (R89): 0..3 immediate, 4 A, 5 B, 6 C, 7 illegal (R91). -/
def comboOperand (raw : Raw) : Except DecodeError Operand :=
  match raw.getLsbD 2, raw.getLsbD 1, raw.getLsbD 0 with
  | false, _, _ => .ok (.imm raw)
  | true, false, false => .ok (.reg .A)
  | true, false, true => .ok (.reg .B)
  | true, true, false => .ok (.reg .C)
  | true, true, true => .error .invalidOperand

/-- An instruction with a combo operand. -/
def withCombo (mk : Operand → Instr) (raw : Raw) : Except DecodeError Instr :=
  match comboOperand raw with
  | .ok v => .ok (mk v)
  | .error e => .error e

/-- The instruction of an opcode and a raw operand, by the opcode map of R85 and the operand kinds of
R87; the opcode's bits are matched in full, so there is no default arm (40_execution_cycle.md R121). -/
def decodeFields (op raw : Raw) : Except DecodeError Instr :=
  match op.getLsbD 2, op.getLsbD 1, op.getLsbD 0 with
  | false, false, false => withCombo .shiftRightA raw
  | false, false, true => .ok (.xorImmediateIntoB raw)
  | false, true, false => withCombo .truncateIntoB raw
  | false, true, true => .ok (.jumpIfANonZero raw)
  | true, false, false => .ok (.xorBWithC raw)
  | true, false, true => withCombo .emit raw
  | true, true, false => withCombo .shiftRightB raw
  | true, true, true => withCombo .shiftRightC raw

/-- `word[5:3]` (R82). -/
def opField (w : InsnWord) : Raw := w.extractLsb' 3 3

/-- `word[2:0]` (R82). -/
def rawField (w : InsnWord) : Raw := w.extractLsb' 0 3

/-- The instruction of a 6-bit word (R82, R83). -/
def decodeWord (w : InsnWord) : Except DecodeError Instr :=
  decodeFields (opField w) (rawField w)

/-- The raw value 0..7 that a cell holds (10_state.md R26), as a field of an instruction. -/
def Cell.raw (c : Cell P) : Raw := c.value.setWidth 3

/-- The instruction of a pair of cells (R84): a bad opcode cell comes before a bad or illegal operand
(R94). -/
def decodePair (o r : Cell P) : Except DecodeError Instr :=
  if o.bad then .error .invalidOpcode
  else if r.bad then .error .invalidOperand
  else decodeFields o.raw r.raw

/-- The pair scan of DECODE (R93): the first failing pair, or VALID; `idx` is the index of the first
cell of the list. -/
def scanPairs : Nat → List (Cell P) → DecCode × Index16
  | idx, o :: r :: rest =>
    match decodePair o r with
    | .ok _ => scanPairs (idx + 2) rest
    | .error .invalidOpcode => (.invalidOpcode, BitVec.ofNat 16 idx)
    | .error .invalidOperand => (.invalidOperand, BitVec.ofNat 16 (idx + 1))
  | idx, [_] => (.malformedProgram, BitVec.ofNat 16 (idx + 1))
  | _, [] => (.valid, 0)

/-- DECODE as a function of `LOAD_OVF` and the loaded cells (R93, R94, R97). -/
def decodeProgram (loadOvf : Bool) (cells : List (Cell P)) : DecCode × Index16 :=
  if loadOvf then (.programTooLong, BitVec.ofNat 16 P.progCapRaw)
  else if cells.length % 2 = 1 then (.malformedProgram, BitVec.ofNat 16 cells.length)
  else scanPairs 0 cells

/-- `Cell(2k)` and `Cell(2k+1)` (R81), absent at or beyond `PROG_LEN`. -/
def cellPair (cells : List (Cell P)) (k : Nat) : Option (Cell P × Cell P) :=
  match cells[2 * k]?, cells[2 * k + 1]? with
  | some o, some r => some (o, r)
  | _, _ => none

/-- `Insn(k)` (R84), absent where the cells are or where the pair is no instruction. -/
def insnAt (cells : List (Cell P)) (k : Nat) : Option Instr :=
  match cellPair cells k with
  | some (o, r) => (decodePair o r).toOption
  | none => none

/-- The raw value that names a combo operand (R89). -/
def Operand.rawBits : Operand → Raw
  | .imm raw => raw
  | .reg .A => 4
  | .reg .B => 5
  | .reg .C => 6

/-- The opcode number of R85. -/
def Instr.opBits : Instr → Raw
  | .shiftRightA _ => 0
  | .xorImmediateIntoB _ => 1
  | .truncateIntoB _ => 2
  | .jumpIfANonZero _ => 3
  | .xorBWithC _ => 4
  | .emit _ => 5
  | .shiftRightB _ => 6
  | .shiftRightC _ => 7

/-- The raw operand (R87). -/
def Instr.rawBits : Instr → Raw
  | .shiftRightA v => v.rawBits
  | .xorImmediateIntoB raw => raw
  | .truncateIntoB v => v.rawBits
  | .jumpIfANonZero raw => raw
  | .xorBWithC raw => raw
  | .emit v => v.rawBits
  | .shiftRightB v => v.rawBits
  | .shiftRightC v => v.rawBits

/-- The 6-bit word of an instruction (R82). -/
def encode (i : Instr) : InsnWord := i.opBits ++ i.rawBits

/-- The cell that holds a raw value 0..7 (10_state.md R26). -/
def Cell.ofRaw (raw : Raw) : Cell P := ⟨zext P.cellW raw, false⟩

/-- The two cells of an instruction, opcode first (R81; 20_memory.md R63). -/
def encodeCells (i : Instr) : List (Cell P) := [Cell.ofRaw i.opBits, Cell.ofRaw i.rawBits]

/-- The cells of a program. -/
def encodeProgram (p : List Instr) : List (Cell P) := p.flatMap encodeCells

/-- The cells a word of spec/opcode_table.json stands for (R82): bits [5:3] in the opcode cell, bits
[2:0] in the operand cell. A word with a bit above bit 5 is no instruction word; it stands for two bad
cells (log 13). -/
def tableCells (w : Nat) : List Cell :=
  if w < 64 then
    [Cell.ofRaw (opField (BitVec.ofNat 6 w)), Cell.ofRaw (rawField (BitVec.ofNat 6 w))]
  else [⟨0, true⟩, ⟨0, true⟩]

/-- The instruction the decoder reads from a word of spec/opcode_table.json, laid out as the program
store holds it; every instruction has one length (R81), so the number of bits decides nothing. -/
def decodeTableWord (_nbits w : Nat) : Option Instr := insnAt (tableCells w) 0

end Sys2Proof
end

