-- ==== Sys2Proof/Machine/State.lean ====
section
/-! DEFINITION. The whole state of the RMI (10_state.md R36), the reasons a step can stop, and the
state after reset (R55). -/

namespace Sys2Proof.Machine

/-- `STATE` (10_state.md R32), in the order of its values 0..4. -/
inductive RunState where
  | idle
  | running
  | halted
  | fault
  | limit
  deriving DecidableEq, Repr

/-- `FAULT_CAUSE` (10_state.md R33; 60_exceptions.md R172), in the order of its codes 0..3. -/
inductive FaultCause where
  | none
  | invalidJumpTarget
  | negativeShift
  | outputOverflow
  deriving DecidableEq, Repr

/-- Who moves once the listed events are spent (20_memory.md R66; log 4). -/
inductive Later where
  /-- The machine, at every step: no further host access and no reset. -/
  | machine
  /-- The unending schedule, from its `n`-th event on. -/
  | schedule (n : Nat)
  deriving DecidableEq, Repr

/-- The state of the RMI (10_state.md R36) at the parameters `P`; `State` alone is that of this hardware
(00_scope.md R6; log 1). `PROG_LEN` is the length of `cells` (log 2) and
`OUT_COUNT` the length of `out` (log 3). The last three fields are the model's own (log 4, log 5). -/
structure State (P : Params := Config.hardware) where
  /-- Register A (R20). -/
  A : Word P
  /-- Register B (R20). -/
  B : Word P
  /-- Register C (R20). -/
  C : Word P
  /-- The program counter, an instruction index (R23). -/
  pc : Pc P
  /-- The loaded cells of the program store, cell 0 first (R26). -/
  cells : List (Cell P)
  /-- `LOAD_OVF` (R27). -/
  loadOvf : Bool
  /-- `DEC_CODE` (R28). -/
  decCode : DecCode
  /-- `DEC_IDX` (R28). -/
  decIdx : Index16
  /-- The output entries, entry 0 first (R30). -/
  out : List (OutValue P)
  /-- `OUT_INDEX` (R31). -/
  outIndex : Index16
  /-- `STATE` (R32). -/
  runState : RunState
  /-- `FAULT_CAUSE` (R33). -/
  faultCause : FaultCause
  /-- `FAULT_PC` (R33). -/
  faultPc : Pc P
  /-- `STEPS` (R34). -/
  steps : StepWord P
  /-- `STEP_LIMIT` (R34). -/
  stepLimit : StepWord P
  /-- `CMD_REJECTED` (R35). -/
  cmdRejected : Bool
  /-- The model's own: what happens next, first event first (log 4). -/
  events : List (Event P)
  /-- The model's own: who moves when `events` is empty (log 4). -/
  later : Later
  /-- The model's own: the word the last host read returned (log 5). -/
  readData : Option (HostWord P)
  deriving DecidableEq, Repr

/-- Why the machine's step has no next state. Neither is an event of the spec: both name a fetch the
spec says cannot occur, and no run reaches one (log 7). -/
inductive Fault where
  /-- Raised by the fetch when RUNNING and `DEC_CODE` is not VALID, where `Insn` is not defined
  (30_encoding.md R84; START requires VALID, 40_execution_cycle.md R111). Safe: the model stops. -/
  | fetchNotDecoded
  /-- Raised by the fetch when RUNNING, `DEC_CODE` is VALID and the pair at `pc` is no instruction
  (20_memory.md R70: "a fetch therefore always reads cells that the last DECODE validated").
  Safe: the model stops. -/
  | fetchIllegalPair
  deriving DecidableEq, Repr

/-- Why an instruction is refused. -/
inductive Refusal where
  /-- Raised by exec for an instruction that has no meaning yet; every instruction has one, so nothing
  raises it. Safe: the model stops. -/
  | notModelled (mnemonic : String)
  deriving DecidableEq, Repr

/-- `PROG_LEN` (10_state.md R26). -/
abbrev State.progLen {P : Params} (s : State P) : Nat := s.cells.length

/-- `N`, the number of instructions (40_execution_cycle.md R112). -/
abbrev State.insnCount {P : Params} (s : State P) : Nat := s.cells.length / 2

/-- `OUT_COUNT` (10_state.md R30). -/
abbrev State.outCount {P : Params} (s : State P) : Nat := s.out.length

/-- The state after reset (10_state.md R55; 70_reset_and_hazards.md R191). The three fields of the
model's own say that nothing but the machine moves and nothing was read (log 19). -/
def State.resetAt (P : Params) : State P where
  A := 0
  B := 0
  C := 0
  pc := 0
  cells := []
  loadOvf := false
  decCode := .notDecoded
  decIdx := 0
  out := []
  outIndex := 0
  runState := .idle
  faultCause := .none
  faultPc := 0
  steps := 0
  stepLimit := 0
  cmdRejected := false
  events := []
  later := .machine
  readData := none

/-- This hardware right after reset (10_state.md R55). -/
def State.reset : State := State.resetAt Config.hardware

end Sys2Proof.Machine
end

