-- ==== Sys2Proof/Machine/Ops.lean ====
section
/-! DEFINITION. The named operations over the registers, the program store, the output buffer and the
run state that every instruction and every step is written with: register access (10_state.md R20),
fetch (40_execution_cycle.md R116), completion (R118), the fault action (60_exceptions.md R171), the
output append (10_state.md R30), the two ways a run ends without a fault (R113, R114), and the
quotient of the shift family (41_shift.md R130). -/

namespace Sys2Proof.Machine

variable {P : Params}

/-- The canonical form of the two stores: at most `PROG_CAP_RAW` cells, a bad cell holds 0
(10_state.md R26), at most `OUT_CAP` entries (R30). -/
def Memory.wf (cells : List (Cell P)) (out : List (OutValue P)) : Bool :=
  decide (cells.length ≤ P.progCapRaw) && cells.all (fun c => !c.bad || c.value == 0) &&
    decide (out.length ≤ P.outCap)

/-- `x[r]` (00_scope.md R9). -/
def readReg (r : Reg) (s : State P) : Word P :=
  match r with
  | .A => s.A
  | .B => s.B
  | .C => s.C

/-- `x[r] <- v` (00_scope.md R9); no register is hard-wired (10_state.md R20). -/
def writeReg (r : Reg) (v : Word P) (s : State P) : State P :=
  match r with
  | .A => { s with A := v }
  | .B => { s with B := v }
  | .C => { s with C := v }

/-- `npc <- k + 1` (40_execution_cycle.md R116). -/
def npc (s : State P) : Pc P := s.pc + 1

/-- The end of a completed instruction: `pc` takes its new value and `STEPS` grows by 1 modulo 2^64
(40_execution_cycle.md R117, R118). -/
def complete (newPc : Pc P) (s : State P) : State P :=
  { s with pc := newPc, steps := s.steps + 1 }

/-- TAKING A FAULT (60_exceptions.md R171): the cause, the index of the faulting instruction, and
STATE; nothing else, so `pc` stays at that index. There is no return from it (R181): START or reset
begins anew. -/
def raiseFault (cause : FaultCause) (s : State P) : State P :=
  { s with faultCause := cause, faultPc := s.pc, runState := .fault }

/-- `OutAppend(v)` (10_state.md R30). -/
def outAppend (v : OutValue P) (s : State P) : State P :=
  { s with out := s.out ++ [v] }

/-- `OUT_COUNT = OUT_CAP` (44_output.md R161); a longer buffer, which no run reaches, counts as full
(log 8). -/
def outFull (s : State P) : Bool := decide (P.outCap ≤ s.outCount)

/-- `trunc_div(n, d)` for `d > 0` (00_scope.md R8): the quotient rounded toward zero. -/
def truncDiv (n d : Int) : Int := Int.tdiv n d

/-- `trunc_div(n, 2^k)` for an `n` that a register of `w` bits holds; from `k = w` on it is 0
(41_shift.md R130), and the power is then not formed (log 9). -/
def shiftQuotient (w : Nat) (n : Int) (k : Nat) : Int :=
  if w ≤ k then 0 else truncDiv n (2 ^ k)

/-- `shr(a, v)` (41_shift.md R130); `none` where it raises NEGATIVE_SHIFT. -/
def shr {w : Nat} (a v : BitVec w) : Option (BitVec w) :=
  if sint v < 0 then none else some (bits w (shiftQuotient w (sint a) (sint v).toNat))

/-- The low three bits of a value, as an output entry or as the value TruncateIntoB writes
(44_output.md R160; 42_bitwise.md R141). -/
def lowThree {w : Nat} (v : BitVec w) : Raw := (v &&& 0b111).setWidth 3

/-- The halt test `uint(pc) >= N` (40_execution_cycle.md R112, R113). -/
def haltTest (s : State P) : Bool := decide (s.insnCount ≤ s.pc.toNat)

/-- The limit test `STEP_LIMIT != 0 and STEPS = STEP_LIMIT` (40_execution_cycle.md R112, R114). -/
def limitTest (s : State P) : Bool := decide (s.stepLimit ≠ 0) && decide (s.steps = s.stepLimit)

/-- The halt step (40_execution_cycle.md R113). -/
def haltRun (s : State P) : State P := { s with runState := .halted }

/-- The limit step (40_execution_cycle.md R114). -/
def limitRun (s : State P) : State P := { s with runState := .limit }

/-- `Insn(pc)` (40_execution_cycle.md R116; 30_encoding.md R84), or the name of the stop (log 7). -/
def fetch (s : State P) : Except Fault Instr :=
  if s.decCode = .valid then
    match insnAt s.cells s.pc.toNat with
    | some i => .ok i
    | none => .error .fetchIllegalPair
  else .error .fetchNotDecoded

end Sys2Proof.Machine
end

