-- ==== Sys2Proof/Machine/Operands.lean ====
section
/-! DEFINITION. Every operand form (30_encoding.md R88, R89) and its resolution against the current
registers (40_execution_cycle.md R115). -/

namespace Sys2Proof.Machine

variable {P : Params}

/-- `resolve` of a combo operand (40_execution_cycle.md R115): an immediate is zero-extended, a
register is read before the instruction writes anything (R122). -/
def resolve (v : Operand) (s : State P) : Word P :=
  match v with
  | .imm raw => zext P.regW raw
  | .reg r => readReg r s

/-- `resolve` of a literal operand (30_encoding.md R88): the raw value zero-extended. -/
def literal (raw : Raw) : Word P := zext P.regW raw

/-- The jump target `raw / 2`, an absolute instruction index (43_control.md R151). -/
def jumpTarget (raw : Raw) : Pc P := BitVec.ofNat P.pcW (raw.toNat / 2)

end Sys2Proof.Machine
end

