-- ==== Sys2Proof/Machine/Flags.lean ====
section
/-! DEFINITION. The RMI has no status flags (10_state.md R25): an instruction sets none and reads none.
What stands here are the two conditions an instruction tests directly. -/

namespace Sys2Proof.Machine

variable {P : Params}

/-- `x[A] != 0` (43_control.md R150): any pattern but all zeros. -/
def aNonZero (s : State P) : Bool := decide (s.A ≠ 0)

/-- "raw is odd" (43_control.md R152). -/
def rawOdd (raw : Raw) : Bool := decide (raw.toNat % 2 = 1)

end Sys2Proof.Machine
end

