-- ==== Sys2Proof/Machine/Bitwise.lean ====
section
/-! DEFINITION. The bitwise family (42_bitwise.md R140 to R142). -/

namespace Sys2Proof.Machine

variable {P : Params}

/-- What the three share: `x[B] <- r; pc <- npc`. -/
def writeB (r : Word P) (s : State P) : Host.Outcome (State P) Fault Refusal :=
  .next (complete (npc s) (writeReg .B r s))

/-- XorImmediateIntoB (42_bitwise.md R140). -/
def execXorImmediateIntoB (raw : Raw) (s : State P) : Host.Outcome (State P) Fault Refusal :=
  writeB (s.B ^^^ literal raw) s

/-- TruncateIntoB (42_bitwise.md R141): the low three bits of the pattern, not a signed remainder
(90_conflicts.md C3). -/
def execTruncateIntoB (v : Operand) (s : State P) : Host.Outcome (State P) Fault Refusal :=
  writeB (zext P.regW (lowThree (resolve v s))) s

/-- XorBWithC (42_bitwise.md R142): the operand is decoded and ignored. -/
def execXorBWithC (_raw : Raw) (s : State P) : Host.Outcome (State P) Fault Refusal :=
  writeB (s.B ^^^ s.C) s

end Sys2Proof.Machine
end

