-- ==== Sys2Proof/Machine/Control.lean ====
section
/-! DEFINITION. Control transfer (43_control.md R150 to R153). -/

namespace Sys2Proof.Machine

variable {P : Params}

/-- JumpIfANonZero (43_control.md R150): the odd-literal check is made only when the jump is taken
(R152; 90_conflicts.md C6). -/
def execJumpIfANonZero (raw : Raw) (s : State P) : Host.Outcome (State P) Fault Refusal :=
  if aNonZero s then
    if rawOdd raw then .next (raiseFault .invalidJumpTarget s)
    else .next (complete (jumpTarget raw) s)
  else .next (complete (npc s) s)

end Sys2Proof.Machine
end

