-- ==== Sys2Proof/Machine/Output.lean ====
section
/-! DEFINITION. Output (44_output.md R160 to R162). -/

namespace Sys2Proof.Machine

variable {P : Params}

/-- Emit (44_output.md R160): the value is the resolved operand, not register B (90_conflicts.md C1). -/
def execEmit (v : Operand) (s : State P) : Host.Outcome (State P) Fault Refusal :=
  if outFull s then .next (raiseFault .outputOverflow s)
  else .next (complete (npc s) (outAppend (zext P.outW (lowThree (resolve v s))) s))

end Sys2Proof.Machine
end

