-- ==== Sys2Proof/Machine/Shift.lean ====
section
/-! DEFINITION. The shift family (41_shift.md R130 to R133). -/

namespace Sys2Proof.Machine

variable {P : Params}

/-- What the three shifts share: `r <- shr(x[A], v); x[dst] <- r; pc <- npc`, or NEGATIVE_SHIFT with
nothing written (41_shift.md R130). -/
def shiftInto (dst : Reg) (v : Operand) (s : State P) : Host.Outcome (State P) Fault Refusal :=
  match shr s.A (resolve v s) with
  | some r => .next (complete (npc s) (writeReg dst r s))
  | none => .next (raiseFault .negativeShift s)

/-- ShiftRightA (41_shift.md R131). -/
def execShiftRightA (v : Operand) (s : State P) : Host.Outcome (State P) Fault Refusal :=
  shiftInto .A v s

/-- ShiftRightB (41_shift.md R132). -/
def execShiftRightB (v : Operand) (s : State P) : Host.Outcome (State P) Fault Refusal :=
  shiftInto .B v s

/-- ShiftRightC (41_shift.md R133). -/
def execShiftRightC (v : Operand) (s : State P) : Host.Outcome (State P) Fault Refusal :=
  shiftInto .C v s

end Sys2Proof.Machine
end

