-- ==== Sys2Proof/Machine/Dispatch.lean ====
section
/-! DEFINITION. The dispatch of an instruction to its meaning (40_execution_cycle.md R121). -/

namespace Sys2Proof.Machine

def exec (i : Instr) (s : State) : Host.Outcome State Fault Refusal :=
  match i with
  | .shiftRightA v => Sys2Proof.Machine.execShiftRightA v s
  | .xorImmediateIntoB raw => Sys2Proof.Machine.execXorImmediateIntoB raw s
  | .truncateIntoB v => Sys2Proof.Machine.execTruncateIntoB v s
  | .jumpIfANonZero raw => Sys2Proof.Machine.execJumpIfANonZero raw s
  | .xorBWithC raw => Sys2Proof.Machine.execXorBWithC raw s
  | .emit v => Sys2Proof.Machine.execEmit v s
  | .shiftRightB v => Sys2Proof.Machine.execShiftRightB v s
  | .shiftRightC v => Sys2Proof.Machine.execShiftRightC v s

end Sys2Proof.Machine
end

