-- ==== Sys2Proof/Machine/Execute.lean ====
section
/-! DEFINITION. The dispatch of an instruction to its meaning at any parameters (40_execution_cycle.md
R121; 00_scope.md R6). Dispatch.lean's exec is this dispatch at the parameters of this hardware. -/

namespace Sys2Proof.Machine

/-- The apply step of `i` (40_execution_cycle.md R121). -/
def execAt {P : Params} (i : Instr) (s : State P) : Host.Outcome (State P) Fault Refusal :=
  match i with
  | .shiftRightA v => execShiftRightA v s
  | .xorImmediateIntoB raw => execXorImmediateIntoB raw s
  | .truncateIntoB v => execTruncateIntoB v s
  | .jumpIfANonZero raw => execJumpIfANonZero raw s
  | .xorBWithC raw => execXorBWithC raw s
  | .emit v => execEmit v s
  | .shiftRightB v => execShiftRightB v s
  | .shiftRightC v => execShiftRightC v s

end Sys2Proof.Machine
end

