-- ==== Sys2Proof/Machine/HostPort.lean ====
section
/-! DEFINITION. The host's side (10_state.md R40 to R54): loading the program store, the commands, the
register map, and the boot sequence (70_reset_and_hazards.md R192). -/

namespace Sys2Proof.Machine

variable {P : Params}

/-- The three-bit value of `STATE` (10_state.md R32). -/
def RunState.code : RunState → BitVec 3
  | .idle => 0
  | .running => 1
  | .halted => 2
  | .fault => 3
  | .limit => 4

/-- The two-bit code of a fault cause (60_exceptions.md R172). -/
def FaultCause.code : FaultCause → BitVec 2
  | .none => 0
  | .invalidJumpTarget => 1
  | .negativeShift => 2
  | .outputOverflow => 3

/-- The three-bit code of a decode result (30_encoding.md R95). -/
def decCodeBits : DecCode → BitVec 3
  | .notDecoded => 0
  | .valid => 1
  | .malformedProgram => 2
  | .invalidOperand => 3
  | .invalidOpcode => 4
  | .programTooLong => 5

/-- A rejected host write or command: `CMD_REJECTED <- 1` and nothing else (10_state.md R35). -/
def reject (s : State P) : State P := { s with cmdRejected := true }

/-- An accepted command clears `CMD_REJECTED` before it acts (10_state.md R41). -/
def accept (s : State P) : State P := { s with cmdRejected := false }

/-- `(DEC_CODE, DEC_IDX) <- (NOT_DECODED, 0)` (30_encoding.md R98). -/
def invalidate (s : State P) : State P := { s with decCode := .notDecoded, decIdx := 0 }

/-- The cell a `PROG_DATA` write stores (10_state.md R43; 30_encoding.md R100): a value outside 0..7 is
never truncated into range. DESIGN CHOICE where a host word is narrower than a cell's value: it is
zero-extended (log 20). -/
def cellOf (w : HostWord P) : Cell P :=
  if w.toNat ≤ 7 then ⟨w.setWidth P.cellW, false⟩ else ⟨0, true⟩

/-- A `PROG_DATA` write (30_encoding.md R100). -/
def progData (w : HostWord P) (s : State P) : State P :=
  invalidate
    (if s.progLen < P.progCapRaw then { s with cells := s.cells ++ [cellOf w] }
     else { s with loadOvf := true })

/-- PROG_CLEAR (30_encoding.md R99). -/
def progClear (s : State P) : State P :=
  invalidate { s with cells := [], loadOvf := false }

/-- DECODE (30_encoding.md R93, R96). -/
def decodeCommand (s : State P) : State P :=
  { s with decCode := (decodeProgram s.loadOvf s.cells).1,
           decIdx := (decodeProgram s.loadOvf s.cells).2 }

/-- What an accepted START does (40_execution_cycle.md R110); A, B, C, `STEP_LIMIT`, `OUT_INDEX` and
the program store keep their values. -/
def startRun (s : State P) : State P :=
  { s with pc := 0, out := [], steps := 0, faultCause := .none, faultPc := 0, runState := .running }

/-- START (40_execution_cycle.md R110), or its refusal (R111). -/
def startCommand (s : State P) : State P :=
  if s.decCode = .valid then startRun (accept s) else reject s

/-- A `CTRL` write (10_state.md R41): bits [3:0] are the command, the others are ignored.
DESIGN CHOICE where a host word has fewer than 4 bits: it is zero-extended (log 20). -/
def ctrlWrite (w : HostWord P) (s : State P) : State P :=
  match (w.extractLsb' 0 4).toNat with
  | 0 => accept s
  | 1 => progClear (accept s)
  | 2 => decodeCommand (accept s)
  | 3 => startCommand s
  | _ => reject s

/-- The register value of a host word (10_state.md R47): all its bits; at widths that differ, the same
integer (log 1). -/
def regOfHost (w : HostWord P) : Word P := sext P.regW w

/-- The host word of a register value (10_state.md R47; log 1). -/
def hostOfReg (v : Word P) : HostWord P := sext P.hostW v

/-- A host write (10_state.md R40): rejected while RUNNING (20_memory.md R67), without effect at a
read-only or unmapped address (10_state.md R54). DESIGN CHOICE where a host word is narrower than the field
it is written to, `OUT_INDEX` or `STEP_LIMIT`: it is zero-extended (log 1, log 20). -/
def hostWrite (addr : Nat) (w : HostWord P) (s : State P) : State P :=
  if s.runState = .running then reject s
  else
    match addr with
    | 0x00 => ctrlWrite w s
    | 0x02 => progData w s
    | 0x06 => { s with A := regOfHost w }
    | 0x07 => { s with B := regOfHost w }
    | 0x08 => { s with C := regOfHost w }
    | 0x0B => { s with outIndex := w.setWidth 16 }
    | 0x0E => { s with stepLimit := zext P.stepW w }
    | _ => s

/-- `STATUS` (10_state.md R42). -/
def statusWord (s : State P) : HostWord P :=
  zext P.hostW (BitVec.ofBool s.loadOvf ++ BitVec.ofBool (decide (s.decCode = .valid)) ++
    BitVec.ofBool s.cmdRejected ++ s.runState.code)

/-- `OUT_DATA` (10_state.md R50): 0 where `OUT_INDEX >= OUT_COUNT`. -/
def outData (s : State P) : HostWord P :=
  match s.out[s.outIndex.toNat]? with
  | some v => zext P.hostW v
  | none => 0

/-- `CONFIG` (10_state.md R53). DESIGN CHOICE where a parameter does not fit its field, or the fields do
not fit the host word: each keeps its low bits (log 20). Every field fits on this hardware. -/
def configWord : HostWord P :=
  zext P.hostW (BitVec.ofNat 8 P.pcW ++ BitVec.ofNat 8 P.regW ++ BitVec.ofNat 16 P.outCap ++
    BitVec.ofNat 16 P.progCapRaw)

/-- A host read (10_state.md R40 to R54): no side effect (20_memory.md R64), 0 at an address that is
write-only or unmapped. -/
def hostRead (addr : Nat) (s : State P) : HostWord P :=
  match addr with
  | 0x00 => 0
  | 0x01 => statusWord s
  | 0x02 => 0
  | 0x03 => BitVec.ofNat P.hostW s.progLen
  | 0x04 => zext P.hostW (decCodeBits s.decCode)
  | 0x05 => zext P.hostW s.decIdx
  | 0x06 => hostOfReg s.A
  | 0x07 => hostOfReg s.B
  | 0x08 => hostOfReg s.C
  | 0x09 => zext P.hostW s.pc
  | 0x0A => BitVec.ofNat P.hostW s.outCount
  | 0x0B => zext P.hostW s.outIndex
  | 0x0C => outData s
  | 0x0D => zext P.hostW s.steps
  | 0x0E => zext P.hostW s.stepLimit
  | 0x0F => zext P.hostW s.faultCause.code
  | 0x10 => zext P.hostW s.faultPc
  | 0x11 => configWord
  | _ => 0

/-- A host read as an event: the state keeps every value and the answer is recorded (log 5). -/
def hostReadEvent (addr : Nat) (s : State P) : State P :=
  { s with readData := some (hostRead addr s) }

/-- Reset (70_reset_and_hazards.md R190): every piece of the RMI's state takes its value of
10_state.md R55; the host's schedule and the last answer are not the RMI's (log 10). -/
def resetEvent (s : State P) : State P :=
  { State.resetAt P with events := s.events, later := s.later, readData := s.readData }

/-- The range of `w`-bit two's complement (00_scope.md R8). -/
abbrev InRange (w : Nat) (n : Int) : Prop := -2 ^ (w - 1) ≤ n ∧ n < 2 ^ (w - 1)

/-- The pattern of a host integer (30_encoding.md R105); one outside the signed range of a register or
of a host word has none, and the host must refuse it. DESIGN CHOICE where the two ranges differ (log 1). -/
def intWord (n : Int) : Option (HostWord P) :=
  if InRange P.regW n ∧ InRange P.hostW n then some (bits P.hostW n) else none

/-- Steps 1 to 3 of the boot sequence without its reads (70_reset_and_hazards.md R192): PROG_CLEAR, one
`PROG_DATA` write per value, DECODE. -/
def loadEvents (program : List (HostWord P)) : List (Event P) :=
  .write 0x00 1 :: (program.map (Event.write 0x02) ++ [.write 0x00 2])

/-- Steps 4 to 6 of the boot sequence (70_reset_and_hazards.md R192): `STEP_LIMIT`, the three
registers, START. -/
def startEvents (limit a b c : HostWord P) : List (Event P) :=
  [.write 0x0E limit, .write 0x06 a, .write 0x07 b, .write 0x08 c, .write 0x00 3]

/-- The store of `s` holding exactly the word `w` of spec/opcode_table.json, decoded, and a run about
to fetch it: what the boot sequence leads to for that one-instruction program (log 12). -/
def placeWord (w : Nat) (s : State) : State :=
  { decodeCommand { s with cells := tableCells w, loadOvf := false } with
    pc := 0, steps := 0, runState := .running, events := [], later := .machine }

end Sys2Proof.Machine
end

