-- ==== Sys2Proof/Machine/Cycle.lean ====
section
/-! DEFINITION. The machine's step (40_execution_cycle.md R112), what each event of the schedule does, and
which event is next (20_memory.md R66; log 4). -/

namespace Sys2Proof.Machine

variable {P : Params}

/-- `InstructionStep` (40_execution_cycle.md R116): fetch, then the instruction's meaning, which
resolves, advances and applies. -/
def instructionStep (s : State P) : Host.Outcome (State P) Fault Refusal :=
  match fetch s with
  | .ok i => execAt i s
  | .error f => .fault f

/-- `Step` (40_execution_cycle.md R112): the halt test, then the limit test, then one instruction. In a
state other than RUNNING the machine takes no step and holds its state (60_exceptions.md R188; log 6). -/
def machineStep (s : State P) : Host.Outcome (State P) Fault Refusal :=
  if s.runState = .running then
    if haltTest s then .next (haltRun s)
    else if limitTest s then .next (limitRun s)
    else instructionStep s
  else .next s

/-- One event of the schedule (20_memory.md R66): the machine's step, a host access, or reset. -/
def takeEvent (e : Event P) (s : State P) : Host.Outcome (State P) Fault Refusal :=
  match e with
  | .machine => machineStep s
  | .read addr => .next (hostReadEvent addr s)
  | .write addr w => .next (hostWrite addr w s)
  | .reset => .next (resetEvent s)

/-- The next event and the state in which it happens, that is, with the event taken off the schedule: the
first listed event, and when none is left the machine's move or the next of `schedule` (20_memory.md R66;
log 4). -/
def nextEvent (schedule : Nat → Event P) (s : State P) : Event P × State P :=
  match s.events with
  | e :: es => (e, { s with events := es })
  | [] =>
    match s.later with
    | .machine => (.machine, s)
    | .schedule n => (schedule n, { s with later := .schedule (n + 1) })

/-- One step of the whole when the unending interleaving is `schedule` (20_memory.md R66; log 4). -/
def stepUnder (schedule : Nat → Event P) (s : State P) : Host.Outcome (State P) Fault Refusal :=
  takeEvent (nextEvent schedule s).1 (nextEvent schedule s).2

end Sys2Proof.Machine
end

