-- ==== Sys2Proof/Machine/Step.lean ====
section
/-! DEFINITION. One step of the whole: the next event of the schedule (20_memory.md R66; log 4). -/

namespace Sys2Proof.Machine

/-- One step at the parameters `P`; an unending interleaving is the free value `Config.schedule`. -/
def stepAt {P : Params} (s : State P) : Host.Outcome (State P) Fault Refusal :=
  stepUnder (Config.schedule P) s

/-- One step of this hardware. -/
def step (s : State) : Host.Outcome State Fault Refusal := stepAt s

/-- `s` with the word `w` of spec/opcode_table.json as the instruction the next step fetches (log 12).
Every instruction has one length (30_encoding.md R81), so the number of bits decides nothing. -/
def State.withFetchWord (s : State) (_nbits w : Nat) : State := placeWord w s

end Sys2Proof.Machine
end

