-- ==== Sys2Proof/Machine/Assembler.lean ====
section
/-! DEFINITION. The assembler notation (30_encoding.md R102 to R104) over lines already split into a
mnemonic and an operand (log 15), and the raw words a host loads. -/

namespace Sys2Proof.Machine

/-- The operand of an assembly line (30_encoding.md R102). -/
inductive AsmOperand where
  | absent
  | num (n : Nat)
  | reg (r : Reg)
  | label (name : String)
  deriving DecidableEq, Repr

/-- A line of assembly text (30_encoding.md R102): `name:` or `<mnemonic> <operand>`. -/
inductive AsmLine where
  | label (name : String)
  | insn (mnemonic : String) (operand : AsmOperand)
  deriving DecidableEq, Repr

/-- A combo operand is written 0..3, A, B or C. -/
def asmCombo (mk : Operand → Instr) : AsmOperand → Option Instr
  | .absent => none
  | .num n => if n ≤ 3 then some (mk (.imm (BitVec.ofNat 3 n))) else none
  | .reg r => some (mk (.reg r))
  | .label _ => none

/-- A literal operand is written 0..7. -/
def asmLiteral (mk : Raw → Instr) : AsmOperand → Option Instr
  | .absent => none
  | .num n => if n ≤ 7 then some (mk (BitVec.ofNat 3 n)) else none
  | .reg _ => none
  | .label _ => none

/-- A jump to a label (30_encoding.md R104). -/
def asmJumpTo (labels : List (String × Nat)) (name : String) : Option Instr :=
  match labels.lookup name with
  | some k => if k ≤ 3 then some (.jumpIfANonZero (BitVec.ofNat 3 (2 * k))) else none
  | none => none

/-- `JumpIfANonZero <label>` assembles to raw `2 * index(label)`, an error unless the index is at most
3 (30_encoding.md R104); a literal stands as it is. DESIGN CHOICE: `A`, `B` or `C` is the label of that name (log 15). -/
def asmJump (labels : List (String × Nat)) : AsmOperand → Option Instr
  | .label name => asmJumpTo labels name
  | .num n => asmLiteral .jumpIfANonZero (.num n)
  | .absent => none
  | .reg .A => asmJumpTo labels "A"
  | .reg .B => asmJumpTo labels "B"
  | .reg .C => asmJumpTo labels "C"

/-- `XorBWithC` without an operand assembles raw 0; a literal is kept (30_encoding.md R102). -/
def asmXorBWithC : AsmOperand → Option Instr
  | .absent => some (.xorBWithC 0)
  | .num n => asmLiteral .xorBWithC (.num n)
  | .reg _ => none
  | .label _ => none

/-- `Nop` takes no operand and is `XorImmediateIntoB 0` (30_encoding.md R104). -/
def asmNop : AsmOperand → Option Instr
  | .absent => some (.xorImmediateIntoB 0)
  | .num _ => none
  | .reg _ => none
  | .label _ => none

/-- One instruction line: the mnemonics of R85 and the aliases of R103. -/
def asmInsn (labels : List (String × Nat)) (mnemonic : String) (operand : AsmOperand) : Option Instr :=
  if mnemonic = "ShiftRightA" ∨ mnemonic = "adv" then asmCombo .shiftRightA operand
  else if mnemonic = "XorImmediateIntoB" ∨ mnemonic = "bxl" then asmLiteral .xorImmediateIntoB operand
  else if mnemonic = "TruncateIntoB" ∨ mnemonic = "bst" then asmCombo .truncateIntoB operand
  else if mnemonic = "JumpIfANonZero" ∨ mnemonic = "jnz" then asmJump labels operand
  else if mnemonic = "XorBWithC" ∨ mnemonic = "bxc" then asmXorBWithC operand
  else if mnemonic = "Emit" ∨ mnemonic = "out" then asmCombo .emit operand
  else if mnemonic = "ShiftRightB" ∨ mnemonic = "bdv" then asmCombo .shiftRightB operand
  else if mnemonic = "ShiftRightC" ∨ mnemonic = "cdv" then asmCombo .shiftRightC operand
  else if mnemonic = "Nop" then asmNop operand
  else none

/-- The labels of a text with the index of the next instruction (30_encoding.md R102). DESIGN CHOICE:
a label after the last instruction has the number of instructions as its index, and a second label of one
name is refused (log 15). -/
def asmLabels : Nat → List AsmLine → Option (List (String × Nat))
  | _, [] => some []
  | k, .insn _ _ :: rest => asmLabels (k + 1) rest
  | k, .label name :: rest =>
    match asmLabels k rest with
    | some labels => if (labels.lookup name).isSome then none else some ((name, k) :: labels)
    | none => none

/-- The instruction lines, assembled in order against the labels of the whole text. -/
def asmBody (labels : List (String × Nat)) : List AsmLine → Option (List Instr)
  | [] => some []
  | .label _ :: rest => asmBody labels rest
  | .insn mnemonic operand :: rest =>
    match asmInsn labels mnemonic operand, asmBody labels rest with
    | some i, some p => some (i :: p)
    | _, _ => none

/-- The program a text assembles to, or none where it is an assembly error. -/
def assemble (text : List AsmLine) : Option (List Instr) :=
  match asmLabels 0 text with
  | some labels => asmBody labels text
  | none => none

/-- The raw values of a program as the host writes them to `PROG_DATA`, opcode first
(30_encoding.md R80, R81). -/
def programWords {P : Params} (p : List Instr) : List (HostWord P) :=
  p.flatMap (fun i => [zext P.hostW i.opBits, zext P.hostW i.rawBits])

end Sys2Proof.Machine
end

