-- ==== Sys2Proof/Machine/Source.lean ====
section
/-! DEFINITION. The source's `execute(program, initial)` as 40_execution_cycle.md R123 speaks of it: the
interpreter over unbounded signed integers with an unbounded output, to which the RMI is compared.
It is no part of the machine (log 16). -/

namespace Sys2Proof.Source

/-- "Execution state: (registers, program_counter)" and the output so far. -/
structure State where
  a : Int
  b : Int
  c : Int
  pc : Nat
  out : List Nat
  deriving DecidableEq, Repr

/-- What one instruction does. -/
inductive StepResult where
  | next (st : State)
  /-- `InvalidJumpTarget`. -/
  | invalidJumpTarget
  /-- A negative shift amount, which the source excludes ("operand is always ≥ 0"). -/
  | negativeShift
  deriving DecidableEq, Repr

/-- What `execute` comes to with so much fuel; each carries the values emitted. -/
inductive Result where
  | output (o : List Nat)
  | invalidJumpTarget (o : List Nat)
  | negativeShift (o : List Nat)
  /-- Still running when the fuel is spent. -/
  | unfinished (o : List Nat)
  deriving DecidableEq, Repr

/-- A combo operand against the current registers. -/
def value (v : Operand) (st : State) : Int :=
  match v with
  | .imm raw => raw.toNat
  | .reg .A => st.a
  | .reg .B => st.b
  | .reg .C => st.c

/-- "a_register_value / 2^operand (integer division toward zero)". -/
def shifted (v : Operand) (st : State) : Int := Int.tdiv st.a (2 ^ (value v st).toNat)

/-- One instruction on a state whose counter has been advanced. XOR and AND are those of unbounded two's
complement, so `AND 0b111` is the remainder in 0..7 (90_conflicts.md C3). -/
def apply (i : Instr) (st : State) : StepResult :=
  match i with
  | .shiftRightA v => if value v st < 0 then .negativeShift else .next { st with a := shifted v st }
  | .xorImmediateIntoB raw => .next { st with b := Int.xor st.b raw.toNat }
  | .truncateIntoB v => .next { st with b := value v st % 8 }
  | .jumpIfANonZero raw =>
    if st.a = 0 then .next st
    else if raw.toNat % 2 = 1 then .invalidJumpTarget
    else .next { st with pc := raw.toNat / 2 }
  | .xorBWithC _ => .next { st with b := Int.xor st.b st.c }
  | .emit v => .next { st with out := st.out ++ [(value v st % 8).toNat] }
  | .shiftRightB v => if value v st < 0 then .negativeShift else .next { st with b := shifted v st }
  | .shiftRightC v => if value v st < 0 then .negativeShift else .next { st with c := shifted v st }

/-- "while `program_counter < program.length()`, fetch ..., advance by 1, then apply". -/
def execute (p : List Instr) : Nat → State → Result
  | 0, st => .unfinished st.out
  | fuel + 1, st =>
    match p[st.pc]? with
    | none => .output st.out
    | some i =>
      match apply i { st with pc := st.pc + 1 } with
      | .next st' => execute p fuel st'
      | .invalidJumpTarget => .invalidJumpTarget st.out
      | .negativeShift => .negativeShift st.out

end Sys2Proof.Source
end

