-- ==== Sys2Proof/Safety.lean ====
section
/-! DEFINITION. The terms the statements use: the result of a run, the invariant every reachable state
meets, the non-negativity law's premise, and the part of the state a run depends on. -/

namespace Sys2Proof.Machine

variable {P : Params}

/-- The observable result (00_scope.md R13): the output, and only of a run that ended HALTED
(40_execution_cycle.md R119). -/
def State.result (s : State P) : Option (List (OutValue P)) :=
  if s.runState = .halted then some s.out else none

/-- `n` steps when the unending interleaving is `schedule`, ending early where a step has no next state: a
run (00_scope.md R11) when nothing but the machine moves, and an interleaving of it with the host
otherwise (20_memory.md R66). -/
def runUnder (schedule : Nat → Event P) : Nat → State P → Host.Outcome (State P) Fault Refusal
  | 0, s => .next s
  | n + 1, s =>
    match stepUnder schedule s with
    | .next s' => runUnder schedule n s'
    | .fault f => .fault f
    | .refused r => .refused r

/-- `n` steps of this hardware. -/
def run (n : Nat) (s : State) : Host.Outcome State Fault Refusal :=
  runUnder (Config.schedule Config.hardware) n s

/-- From here on nothing but the machine moves: no host access and no reset (log 4). -/
abbrev State.Alone (s : State P) : Prop := s.events = [] ∧ s.later = .machine

/-- From here on the events are those of the unending schedule, from the `n`-th on (log 4). -/
abbrev State.Follows (n : Nat) (s : State P) : Prop := s.events = [] ∧ s.later = .schedule n

/-- How many of the events `f k`, ..., `f (k + n - 1)` are the machine's moves. -/
def machineMoves (f : Nat → Event P) (k n : Nat) : Nat :=
  ((List.range n).map (fun m => f (k + m))).count .machine

/-- What every state that a run, the host and reset can lead to meets. -/
structure Inv (s : State P) : Prop where
  /-- The stores keep their canonical form (10_state.md R26, R30). -/
  stores : Memory.wf s.cells s.out = true
  /-- `LOAD_OVF` is set only on a full store (10_state.md R27). -/
  overflow : s.loadOvf = true → s.progLen = P.progCapRaw
  /-- The decode status is never stale: it is NOT_DECODED, or what DECODE says of the cells as they
  are now (10_state.md R28; 20_memory.md R70). -/
  decoded : (s.decCode = .notDecoded ∧ s.decIdx = 0) ∨
    (s.decCode, s.decIdx) = decodeProgram s.loadOvf s.cells
  /-- A run is in progress only over a VALID program (40_execution_cycle.md R111). -/
  runsValid : s.runState = .running → s.decCode = .valid
  /-- `pc` is at most `max(PROG_CAP, 3)` (10_state.md R24). -/
  pcBound : s.pc.toNat ≤ max P.progCap 3
  /-- In a run `pc` is at most `max(N, 3)` (10_state.md R24). -/
  pcInRun : s.runState = .running → s.pc.toNat ≤ max s.insnCount 3
  /-- The fault record is set exactly in FAULT (10_state.md R33; 60_exceptions.md R171). -/
  faultRecord : s.runState = .fault ↔ s.faultCause ≠ .none
  /-- `FAULT_PC` is the index of the faulting instruction, where `pc` still stands (60_exceptions.md
  R171), and 0 when there is no fault. -/
  faultIndex : s.faultPc = if s.runState = .fault then s.pc else 0
  /-- IDLE is the state after reset: no run has started (10_state.md R32). -/
  idleFresh : s.runState = .idle → s.pc = 0 ∧ s.out = [] ∧ s.steps = 0
  /-- A limited run has executed at most `STEP_LIMIT` instructions (40_execution_cycle.md R114). -/
  withinLimit : s.runState = .running → s.stepLimit ≠ 0 → s.steps.toNat ≤ s.stepLimit.toNat

/-- The three registers read as non-negative integers (10_state.md R22). -/
def NonNegative (s : State P) : Prop := 0 ≤ sint s.A ∧ 0 ≤ sint s.B ∧ 0 ≤ sint s.C

/-- The state without what the host can change while a run is in progress and what it selects for
reading (20_memory.md R67): `CMD_REJECTED`, `OUT_INDEX` and the model's own fields. -/
def runView (s : State P) : State P :=
  { s with outIndex := 0, cmdRejected := false, events := [], later := .machine, readData := none }

/-- A pair of cells that DECODE accepts, in the words of 30_encoding.md R93. -/
def pairAccepted (o r : Cell) : Prop :=
  o.bad = false ∧ r.bad = false ∧ ¬(o.value ∈ [0, 2, 5, 6, 7] ∧ r.value = 7)

end Sys2Proof.Machine
end

