-- ==== Sys2Proof/Certificates/Slice0/Obligations.lean ====
section
/-! DEFINITION. The statements about the RMI, in the order of the spec's files. Each docstring names the
rule it formalises, or the log entry where a clause is the model's own choice. -/

open Sys2Proof Sys2Proof.Machine

/-! ### Encoding and the program decoder (30_encoding.md) -/

/-- The opcode map and the operand kinds, word by word. The numbers 0, 2, 3 and 5 are fixed by the
source's examples; 1, 4, 6 and 7 are the spec's inference from list position (30_encoding.md R86,
92_eei_decisions.md D2; log 14). -/
def Obligations.WordsDecodeAsTheOpcodeMapSays : Prop :=
  decodeWord 0b000001 = .ok (.shiftRightA (.imm 1)) ∧
  decodeWord 0b001111 = .ok (.xorImmediateIntoB 7) ∧
  decodeWord 0b010110 = .ok (.truncateIntoB (.reg .C)) ∧
  decodeWord 0b011110 = .ok (.jumpIfANonZero 6) ∧
  decodeWord 0b100111 = .ok (.xorBWithC 7) ∧
  decodeWord 0b101100 = .ok (.emit (.reg .A)) ∧
  decodeWord 0b110101 = .ok (.shiftRightB (.reg .B)) ∧
  decodeWord 0b111110 = .ok (.shiftRightC (.reg .C))

/-- A word is an instruction exactly when it is not raw 7 on one of the five combo opcodes, and then
the error is INVALID_OPERAND (30_encoding.md R90, R91). -/
def Obligations.OnlyRawSevenOnAComboOpcodeIsIllegal : Prop :=
  ∀ op raw : Raw,
    (op ∈ [0, 2, 5, 6, 7] ∧ raw = 7 → decodeWord (op ++ raw) = .error .invalidOperand) ∧
    (¬(op ∈ [0, 2, 5, 6, 7] ∧ raw = 7) → ∃ i, decodeWord (op ++ raw) = .ok i)

/-- A combo operand: 0..3 the immediate, 4 A, 5 B, 6 C, 7 none, resolved against the registers as they
stand (30_encoding.md R89). -/
def Obligations.ComboOperandsResolve : Prop :=
  (∀ (raw : Raw), raw.toNat ≤ 3 →
    ∃ v, comboOperand raw = .ok v ∧ ∀ s : State, resolve v s = raw.setWidth 64) ∧
  (∃ v, comboOperand 4 = .ok v ∧ ∀ s : State, resolve v s = s.A) ∧
  (∃ v, comboOperand 5 = .ok v ∧ ∀ s : State, resolve v s = s.B) ∧
  (∃ v, comboOperand 6 = .ok v ∧ ∀ s : State, resolve v s = s.C) ∧
  comboOperand 7 = .error .invalidOperand

/-- DECODE AND ENCODE AGREE, both ways: the word of a well-formed instruction decodes to it with every
operand bit, and a word that decodes is the word of what it decodes to (30_encoding.md R82 to R92). -/
def Obligations.DecodeAndEncodeAgree : Prop :=
  (∀ i : Instr, i.WellFormed → decodeWord (encode i) = .ok i) ∧
  (∀ (w : InsnWord) (i : Instr), decodeWord w = .ok i → i.WellFormed ∧ encode i = w)

/-- DECODE answers VALID exactly on the cells of a program of well-formed instructions, and `Insn(k)`
is then the program's k-th instruction (30_encoding.md R84, R91, R93). -/
def Obligations.ValidProgramsAreTheEncodedOnes : Prop :=
  (∀ p : List Instr, (∀ i ∈ p, i.WellFormed) →
    decodeProgram false (encodeProgram p : List Cell) = (.valid, 0) ∧
    ∀ k (h : k < p.length), insnAt (encodeProgram p : List Cell) k = some p[k]) ∧
  (∀ cells : List Cell, (decodeProgram false cells).1 = .valid →
    ∃ p : List Instr, (∀ i ∈ p, i.WellFormed) ∧ encodeProgram p = cells)

/-- The DECODE command: PROGRAM_TOO_LONG, then MALFORMED_PROGRAM, then the lowest failing pair with its
opcode cell first, else VALID; nothing else changes but `CMD_REJECTED`, which an accepted command
clears (30_encoding.md R93, R94, R96). -/
def Obligations.DecodeReportsTheFirstError : Prop :=
  ∀ (s : State) (w : HostWord), s.runState ≠ .running → w.extractLsb' 0 4 = 2 →
    (s.loadOvf = true → hostWrite 0x00 w s =
      { s with cmdRejected := false, decCode := .programTooLong, decIdx := 64 }) ∧
    (s.loadOvf = false → s.progLen % 2 = 1 → hostWrite 0x00 w s =
      { s with cmdRejected := false, decCode := .malformedProgram,
               decIdx := BitVec.ofNat 16 s.progLen }) ∧
    (s.loadOvf = false → s.progLen % 2 = 0 →
      (∀ k o r, cellPair s.cells k = some (o, r) → pairAccepted o r) →
      hostWrite 0x00 w s = { s with cmdRejected := false, decCode := .valid, decIdx := 0 }) ∧
    (s.loadOvf = false → s.progLen % 2 = 0 →
      ∀ k o r, cellPair s.cells k = some (o, r) →
        (∀ j < k, ∀ o' r', cellPair s.cells j = some (o', r') → pairAccepted o' r') →
        (o.bad = true → hostWrite 0x00 w s =
          { s with cmdRejected := false, decCode := .invalidOpcode,
                   decIdx := BitVec.ofNat 16 (2 * k) }) ∧
        (o.bad = false → r.bad = true ∨ (o.value ∈ [0, 2, 5, 6, 7] ∧ r.value = 7) →
          hostWrite 0x00 w s =
            { s with cmdRejected := false, decCode := .invalidOperand,
                     decIdx := BitVec.ofNat 16 (2 * k + 1) }))

/-- DECODE twice gives what DECODE once gives, and what it gives depends on `LOAD_OVF` and the loaded
cells alone (30_encoding.md R97). -/
def Obligations.DecodeIsPureAndRepeatable : Prop :=
  (∀ (s : State), s.runState ≠ .running →
    hostWrite 0x00 2 (hostWrite 0x00 2 s) = hostWrite 0x00 2 s) ∧
  (∀ (s t : State), s.runState ≠ .running → t.runState ≠ .running →
    s.loadOvf = t.loadOvf → s.cells = t.cells →
    (hostWrite 0x00 2 s).decCode = (hostWrite 0x00 2 t).decCode ∧
    (hostWrite 0x00 2 s).decIdx = (hostWrite 0x00 2 t).decIdx)

/-- PROG_CLEAR (30_encoding.md R99). -/
def Obligations.ProgClearEmptiesTheStore : Prop :=
  ∀ (s : State) (w : HostWord), s.runState ≠ .running → w.extractLsb' 0 4 = 1 →
    hostWrite 0x00 w s =
      { s with cmdRejected := false, cells := [], loadOvf := false, decCode := .notDecoded, decIdx := 0 }

/-- A `PROG_DATA` write: the cell, the bad cell, the dropped overflow, and the invalidation
(30_encoding.md R100; 10_state.md R43). -/
def Obligations.ProgDataAppendsOneCell : Prop :=
  ∀ (s : State) (w : HostWord), s.runState ≠ .running →
    (s.progLen < 64 → w.toNat ≤ 7 → hostWrite 0x02 w s =
      { s with cells := s.cells ++ [⟨w.extractLsb' 0 3, false⟩], decCode := .notDecoded, decIdx := 0 }) ∧
    (s.progLen < 64 → 7 < w.toNat → hostWrite 0x02 w s =
      { s with cells := s.cells ++ [⟨0, true⟩], decCode := .notDecoded, decIdx := 0 }) ∧
    (s.progLen = 64 → hostWrite 0x02 w s =
      { s with loadOvf := true, decCode := .notDecoded, decIdx := 0 }) ∧
    hostRead 0x02 s = 0

/-! ### The assembler notation (30_encoding.md R102 to R105) -/

/-- Every well-formed instruction can be written under its mnemonic and under its alias, and assembles
to itself (30_encoding.md R102, R103). The line level is the model's choice (log 15). -/
def Obligations.EveryInstructionHasAnAssemblyForm : Prop :=
  (∀ (labels : List (String × Nat)) (r : Raw),
    asmInsn labels "XorImmediateIntoB" (.num r.toNat) = some (.xorImmediateIntoB r) ∧
    asmInsn labels "bxl" (.num r.toNat) = some (.xorImmediateIntoB r) ∧
    asmInsn labels "JumpIfANonZero" (.num r.toNat) = some (.jumpIfANonZero r) ∧
    asmInsn labels "jnz" (.num r.toNat) = some (.jumpIfANonZero r) ∧
    asmInsn labels "XorBWithC" (.num r.toNat) = some (.xorBWithC r) ∧
    asmInsn labels "bxc" (.num r.toNat) = some (.xorBWithC r)) ∧
  (∀ (labels : List (String × Nat)) (v : Operand), v.wellFormed = true →
    ∃ a : AsmOperand,
      asmInsn labels "ShiftRightA" a = some (.shiftRightA v) ∧
      asmInsn labels "adv" a = some (.shiftRightA v) ∧
      asmInsn labels "TruncateIntoB" a = some (.truncateIntoB v) ∧
      asmInsn labels "bst" a = some (.truncateIntoB v) ∧
      asmInsn labels "Emit" a = some (.emit v) ∧
      asmInsn labels "out" a = some (.emit v) ∧
      asmInsn labels "ShiftRightB" a = some (.shiftRightB v) ∧
      asmInsn labels "bdv" a = some (.shiftRightB v) ∧
      asmInsn labels "ShiftRightC" a = some (.shiftRightC v) ∧
      asmInsn labels "cdv" a = some (.shiftRightC v))

/-- What assembles is well formed, so its cells decode (30_encoding.md R102). -/
def Obligations.AssembledProgramsAreWellFormed : Prop :=
  ∀ (text : List AsmLine) (p : List Instr), assemble text = some p → ∀ i ∈ p, i.WellFormed

/-- The pseudo-instructions (30_encoding.md R104) and the omitted operand of XorBWithC (R102). -/
def Obligations.PseudoInstructionsAssemble : Prop :=
  (∀ labels, asmInsn labels "Nop" .absent = some (.xorImmediateIntoB 0)) ∧
  (∀ labels, asmInsn labels "XorBWithC" .absent = some (.xorBWithC 0)) ∧
  (∀ (labels : List (String × Nat)) (name : String) (k : Nat), labels.lookup name = some k →
    (k ≤ 3 → ∃ raw : Raw, asmInsn labels "JumpIfANonZero" (.label name) = some (.jumpIfANonZero raw) ∧
      raw.toNat = 2 * k) ∧
    (3 < k → asmInsn labels "JumpIfANonZero" (.label name) = none))

/-- A host integer has a register pattern exactly when it is in the 64-bit signed range, and the pattern
reads back as it (30_encoding.md R105). -/
def Obligations.HostIntegersInRangeHavePatterns : Prop :=
  ∀ n : Int,
    (-2 ^ 63 ≤ n ∧ n < 2 ^ 63 → ∃ w : HostWord, intWord n = some w ∧ sint w = n) ∧
    (n < -2 ^ 63 ∨ 2 ^ 63 ≤ n → intWord (P := Config.hardware) n = none)

/-! ### The host register map (10_state.md R40 to R54) -/

/-- The command field: NOP clears `CMD_REJECTED`, 4..15 set it, bits [63:4] are ignored, and `CTRL`
reads 0 (10_state.md R41). -/
def Obligations.CtrlCommandField : Prop :=
  ∀ (s : State) (w : HostWord), s.runState ≠ .running →
    (w.extractLsb' 0 4 = 0 → hostWrite 0x00 w s = { s with cmdRejected := false }) ∧
    (4 ≤ (w.extractLsb' 0 4).toNat → hostWrite 0x00 w s = { s with cmdRejected := true }) ∧
    (∀ w' : HostWord, w'.extractLsb' 0 4 = w.extractLsb' 0 4 → hostWrite 0x00 w' s = hostWrite 0x00 w s) ∧
    hostRead 0x00 s = 0

/-- The layout of `STATUS` (10_state.md R42). -/
def Obligations.StatusWordLayout : Prop :=
  ∀ s : State,
    (s.runState = .idle → (hostRead 0x01 s).extractLsb' 0 3 = 0) ∧
    (s.runState = .running → (hostRead 0x01 s).extractLsb' 0 3 = 1) ∧
    (s.runState = .halted → (hostRead 0x01 s).extractLsb' 0 3 = 2) ∧
    (s.runState = .fault → (hostRead 0x01 s).extractLsb' 0 3 = 3) ∧
    (s.runState = .limit → (hostRead 0x01 s).extractLsb' 0 3 = 4) ∧
    (hostRead 0x01 s).getLsbD 3 = s.cmdRejected ∧
    ((hostRead 0x01 s).getLsbD 4 = true ↔ s.decCode = .valid) ∧
    (hostRead 0x01 s).getLsbD 5 = s.loadOvf ∧
    ∀ i, 6 ≤ i → (hostRead 0x01 s).getLsbD i = false

/-- What the read-only count, index, record and parameter registers return (10_state.md, section 8, R44 to
R46, R48, R49 and R51 to R53), on a state whose stores are within their capacities. That `PROG_LEN` and
`OUT_COUNT` are the lengths of the model's lists is log 2 and log 3. -/
def Obligations.ReadOnlyRegistersRead : Prop :=
  ∀ s : State, Memory.wf s.cells s.out = true →
    (hostRead 0x03 s).toNat = s.progLen ∧
    (hostRead 0x04 s = match s.decCode with
      | .notDecoded => 0
      | .valid => 1
      | .malformedProgram => 2
      | .invalidOperand => 3
      | .invalidOpcode => 4
      | .programTooLong => 5) ∧
    (hostRead 0x05 s).toNat = s.decIdx.toNat ∧
    (hostRead 0x09 s).toNat = s.pc.toNat ∧
    (hostRead 0x0A s).toNat = s.outCount ∧
    hostRead 0x0D s = s.steps ∧
    (hostRead 0x0F s = match s.faultCause with
      | .none => 0
      | .invalidJumpTarget => 1
      | .negativeShift => 2
      | .outputOverflow => 3) ∧
    (hostRead 0x10 s).toNat = s.faultPc.toNat ∧
    hostRead 0x11 s = 0x0000064001000040

/-- The registers and the step limit are set by host writes and read back (10_state.md R47, R51). -/
def Obligations.HostSetsTheRegisters : Prop :=
  ∀ (s : State) (w : HostWord),
    (s.runState ≠ .running →
      hostWrite 0x06 w s = { s with A := w } ∧ hostWrite 0x07 w s = { s with B := w } ∧
      hostWrite 0x08 w s = { s with C := w } ∧ hostWrite 0x0E w s = { s with stepLimit := w }) ∧
    hostRead 0x06 s = s.A ∧ hostRead 0x07 s = s.B ∧ hostRead 0x08 s = s.C ∧ hostRead 0x0E s = s.stepLimit

/-- `OUT_INDEX` selects what `OUT_DATA` returns; neither read changes anything of the RMI
(10_state.md R50). That a read is an event of a schedule and its answer is kept in `readData` is the
model's choice (log 4, log 5). -/
def Obligations.OutDataReadsTheSelectedEntry : Prop :=
  ∀ (s : State),
    (∀ w : HostWord, s.runState ≠ .running → hostWrite 0x0B w s = { s with outIndex := w.extractLsb' 0 16 }) ∧
    (hostRead 0x0B s).toNat = s.outIndex.toNat ∧
    (∀ h : s.outIndex.toNat < s.out.length, hostRead 0x0C s = (s.out[s.outIndex.toNat]).setWidth 64) ∧
    (s.out.length ≤ s.outIndex.toNat → hostRead 0x0C s = 0) ∧
    takeEvent (.read 0x0B) s = .next { s with readData := some (hostRead 0x0B s) } ∧
    takeEvent (.read 0x0C) s = .next { s with readData := some (hostRead 0x0C s) }

/-- Unmapped addresses read 0; a write there or to a read-only register does nothing, unless RUNNING,
when it is rejected (10_state.md R54). -/
def Obligations.UnmappedAndReadOnlyAccesses : Prop :=
  ∀ (s : State) (addr : Nat) (w : HostWord),
    (0x11 < addr → hostRead addr s = 0) ∧
    (addr ∉ [0x00, 0x02, 0x06, 0x07, 0x08, 0x0B, 0x0E] →
      (s.runState ≠ .running → hostWrite addr w s = s) ∧
      (s.runState = .running → hostWrite addr w s = { s with cmdRejected := true }))

/-! ### The instructions (41_shift.md, 42_bitwise.md, 43_control.md, 44_output.md)

Each is stated as the whole next state, so it says the result, the completion and the frame at once:
what is not named keeps its value. -/

/-- ShiftRightA: the exact quotient toward zero for every amount `k >= 0`, however large, and the
NEGATIVE_SHIFT fault for the others (41_shift.md R130, R131). -/
def Obligations.ShiftRightAMeaning : Prop :=
  (∀ (raw : Raw) (v : Operand), comboOperand raw = .ok v →
    decodeWord (0b000#3 ++ raw) = .ok (.shiftRightA v)) ∧
  decodeWord (0b000#3 ++ 7#3) = .error .invalidOperand ∧
  ∀ (v : Operand) (s : State),
    (0 ≤ sint (resolve v s) → exec (.shiftRightA v) s =
      .next { s with A := bits 64 (Int.tdiv (sint s.A) (2 ^ (sint (resolve v s)).toNat)),
                     pc := s.pc + 1, steps := s.steps + 1 }) ∧
    (sint (resolve v s) < 0 → exec (.shiftRightA v) s =
      .next { s with faultCause := .negativeShift, faultPc := s.pc, runState := .fault })

/-- ShiftRightB and ShiftRightC: the dividend is A, the destination B or C (41_shift.md R132, R133;
90_conflicts.md C5). Their opcode numbers 6 and 7 are the spec's inference (D2; log 14). -/
def Obligations.ShiftRightBAndCMeaning : Prop :=
  (∀ (raw : Raw) (v : Operand), comboOperand raw = .ok v →
    decodeWord (0b110#3 ++ raw) = .ok (.shiftRightB v) ∧
    decodeWord (0b111#3 ++ raw) = .ok (.shiftRightC v)) ∧
  ∀ (v : Operand) (s : State),
    (0 ≤ sint (resolve v s) →
      exec (.shiftRightB v) s =
        .next { s with B := bits 64 (Int.tdiv (sint s.A) (2 ^ (sint (resolve v s)).toNat)),
                       pc := s.pc + 1, steps := s.steps + 1 } ∧
      exec (.shiftRightC v) s =
        .next { s with C := bits 64 (Int.tdiv (sint s.A) (2 ^ (sint (resolve v s)).toNat)),
                       pc := s.pc + 1, steps := s.steps + 1 }) ∧
    (sint (resolve v s) < 0 →
      exec (.shiftRightB v) s =
        .next { s with faultCause := .negativeShift, faultPc := s.pc, runState := .fault } ∧
      exec (.shiftRightC v) s =
        .next { s with faultCause := .negativeShift, faultPc := s.pc, runState := .fault })

/-- The laws of the shift family at every register width `REG_W >= 64` (41_shift.md, section of R134): logical shift on non-negative values,
no overflow, composition, sign. -/
def Obligations.ShiftFamilyLaws : Prop :=
  ∀ n : Nat, 64 ≤ n →
    (∀ (a : BitVec n) (k : Nat), 0 ≤ sint a → k < 64 → shr a (BitVec.ofNat n k) = some (a >>> k)) ∧
    (∀ a v : BitVec n, 0 ≤ sint v →
      ∃ q, shr a v = some q ∧ sint q = Int.tdiv (sint a) (2 ^ (sint v).toNat)) ∧
    (∀ (a : BitVec n) (j k : Nat), j + k < 2 ^ 63 →
      (shr a (BitVec.ofNat n j)).bind (fun b => shr b (BitVec.ofNat n k)) =
        shr a (BitVec.ofNat n (j + k))) ∧
    (∀ a v q : BitVec n, shr a v = some q → (0 ≤ sint a → 0 ≤ sint q) ∧ (sint a ≤ 0 → sint q ≤ 0))

/-- XorImmediateIntoB (42_bitwise.md R140). Its opcode number 1 is the spec's inference (D2; log 14). -/
def Obligations.XorImmediateIntoBMeaning : Prop :=
  ∀ (raw : Raw) (s : State),
    decodeWord (0b001#3 ++ raw) = .ok (.xorImmediateIntoB raw) ∧
    exec (.xorImmediateIntoB raw) s =
      .next { s with B := s.B ^^^ raw.setWidth 64, pc := s.pc + 1, steps := s.steps + 1 }

/-- TruncateIntoB: the low three bits of the resolved operand's pattern (42_bitwise.md R141). -/
def Obligations.TruncateIntoBMeaning : Prop :=
  (∀ (raw : Raw) (v : Operand), comboOperand raw = .ok v →
    decodeWord (0b010#3 ++ raw) = .ok (.truncateIntoB v)) ∧
  decodeWord (0b010#3 ++ 7#3) = .error .invalidOperand ∧
  ∀ (v : Operand) (s : State),
    exec (.truncateIntoB v) s =
      .next { s with B := resolve v s &&& 0b111, pc := s.pc + 1, steps := s.steps + 1 }

/-- XorBWithC: the operand is ignored (42_bitwise.md R142). Its opcode number 4 is the spec's inference
(D2; log 14). -/
def Obligations.XorBWithCMeaning : Prop :=
  ∀ (raw : Raw) (s : State),
    decodeWord (0b100#3 ++ raw) = .ok (.xorBWithC raw) ∧
    exec (.xorBWithC raw) s =
      .next { s with B := s.B ^^^ s.C, pc := s.pc + 1, steps := s.steps + 1 }

/-- The laws of the bitwise family (42_bitwise.md, section of R143): XorImmediateIntoB and XorBWithC
undo themselves, and TruncateIntoB leaves a value in 0..7. -/
def Obligations.BitwiseFamilyLaws : Prop :=
  (∀ (raw : Raw) (s : State), ∃ t u, exec (.xorImmediateIntoB raw) s = .next t ∧
    exec (.xorImmediateIntoB raw) t = .next u ∧ u.B = s.B) ∧
  (∀ (raw raw' : Raw) (s : State), ∃ t u, exec (.xorBWithC raw) s = .next t ∧
    exec (.xorBWithC raw') t = .next u ∧ u.B = s.B) ∧
  (∀ (v : Operand) (s : State), ∃ t, exec (.truncateIntoB v) s = .next t ∧
    0 ≤ sint t.B ∧ sint t.B ≤ 7)

/-- JumpIfANonZero: not taken, taken, and the odd-literal fault of a taken jump only; an odd literal
decodes (43_control.md R150, R151, R152). -/
def Obligations.JumpIfANonZeroMeaning : Prop :=
  ∀ (raw : Raw) (s : State),
    decodeWord (0b011#3 ++ raw) = .ok (.jumpIfANonZero raw) ∧
    (s.A = 0 → exec (.jumpIfANonZero raw) s =
      .next { s with pc := s.pc + 1, steps := s.steps + 1 }) ∧
    (s.A ≠ 0 → raw.toNat % 2 = 0 → exec (.jumpIfANonZero raw) s =
      .next { s with pc := BitVec.ofNat 6 (raw.toNat / 2), steps := s.steps + 1 }) ∧
    (s.A ≠ 0 → raw.toNat % 2 = 1 → exec (.jumpIfANonZero raw) s =
      .next { s with faultCause := .invalidJumpTarget, faultPc := s.pc, runState := .fault })

/-- Emit: the low three bits of the resolved operand are appended, or OUTPUT_OVERFLOW when the buffer is
full (44_output.md R160, R161). -/
def Obligations.EmitMeaning : Prop :=
  (∀ (raw : Raw) (v : Operand), comboOperand raw = .ok v →
    decodeWord (0b101#3 ++ raw) = .ok (.emit v)) ∧
  decodeWord (0b101#3 ++ 7#3) = .error .invalidOperand ∧
  ∀ (v : Operand) (s : State),
    (s.outCount < 256 → exec (.emit v) s =
      .next { s with out := s.out ++ [(resolve v s).extractLsb' 0 3],
                     pc := s.pc + 1, steps := s.steps + 1 }) ∧
    (s.outCount = 256 → exec (.emit v) s =
      .next { s with faultCause := .outputOverflow, faultPc := s.pc, runState := .fault })

/-- Every instruction either completes, and then adds 1 to STEPS and leaves the run state and the fault
record alone, or takes a fault, which writes the cause, the index and STATE and nothing else; it never
stops the model (40_execution_cycle.md R117; 60_exceptions.md R171). -/
def Obligations.InstructionsAreAtomic : Prop :=
  ∀ (i : Instr) (s : State),
    (∃ t, exec i s = .next t ∧ t.steps = s.steps + 1 ∧ t.runState = s.runState ∧
      t.faultCause = s.faultCause ∧ t.faultPc = s.faultPc) ∨
    (∃ c, c ≠ FaultCause.none ∧ exec i s =
      .next { s with faultCause := c, faultPc := s.pc, runState := .fault })

/-- Which instruction raises which fault, and when, on a buffer within its capacity
(60_exceptions.md R172). -/
def Obligations.FaultCausesAreExactly : Prop :=
  ∀ (i : Instr) (s : State), s.outCount ≤ 256 →
    (exec i s = .next { s with faultCause := .invalidJumpTarget, faultPc := s.pc, runState := .fault } ↔
      ∃ raw, i = .jumpIfANonZero raw ∧ s.A ≠ 0 ∧ raw.toNat % 2 = 1) ∧
    (exec i s = .next { s with faultCause := .negativeShift, faultPc := s.pc, runState := .fault } ↔
      ∃ v, (i = .shiftRightA v ∨ i = .shiftRightB v ∨ i = .shiftRightC v) ∧ sint (resolve v s) < 0) ∧
    (exec i s = .next { s with faultCause := .outputOverflow, faultPc := s.pc, runState := .fault } ↔
      ∃ v, i = .emit v ∧ s.outCount = 256)

/-- THE FRAME of all instructions: each writes its own destination of 10_state.md R21 and no other, and
none touches the program store, the decode status, the step limit, the output selector or
`CMD_REJECTED` (10_state.md, section 1; 20_memory.md, section 1). -/
def Obligations.InstructionsWriteOnlyTheirDestination : Prop :=
  ∀ (i : Instr) (s t : State), exec i s = .next t →
    (t.A ≠ s.A → ∃ v, i = .shiftRightA v) ∧
    (t.B ≠ s.B → (∃ raw, i = .xorImmediateIntoB raw) ∨ (∃ v, i = .truncateIntoB v) ∨
      (∃ raw, i = .xorBWithC raw) ∨ (∃ v, i = .shiftRightB v)) ∧
    (t.C ≠ s.C → ∃ v, i = .shiftRightC v) ∧
    (t.out ≠ s.out → ∃ v, i = .emit v) ∧
    (t.runState = s.runState → t.pc ≠ s.pc + 1 →
      s.runState = .fault ∨ ∃ raw, i = .jumpIfANonZero raw) ∧
    t.cells = s.cells ∧ t.loadOvf = s.loadOvf ∧ t.decCode = s.decCode ∧ t.decIdx = s.decIdx ∧
    t.outIndex = s.outIndex ∧ t.stepLimit = s.stepLimit ∧ t.cmdRejected = s.cmdRejected ∧
    t.events = s.events ∧ t.later = s.later ∧ t.readData = s.readData

/-! ### The execution cycle (40_execution_cycle.md) -/

/-- START: what an accepted one does and keeps, and that it is refused without VALID
(40_execution_cycle.md R110, R111). -/
def Obligations.StartBeginsARunOrIsRefused : Prop :=
  ∀ (s : State) (w : HostWord), s.runState ≠ .running → w.extractLsb' 0 4 = 3 →
    (s.decCode = .valid → hostWrite 0x00 w s =
      { s with cmdRejected := false, pc := 0, out := [], steps := 0, faultCause := .none, faultPc := 0,
               runState := .running }) ∧
    (s.decCode ≠ .valid → hostWrite 0x00 w s = { s with cmdRejected := true })

/-- The machine's step while RUNNING: the halt test, then the limit test, then the instruction at `pc`
(40_execution_cycle.md R112, R113). -/
def Obligations.HaltThenLimitThenInstruction : Prop :=
  ∀ s : State, s.runState = .running → s.Alone →
    (s.insnCount ≤ s.pc.toNat → step s = .next { s with runState := .halted }) ∧
    (s.pc.toNat < s.insnCount → s.stepLimit ≠ 0 → s.steps = s.stepLimit →
      step s = .next { s with runState := .limit }) ∧
    (s.pc.toNat < s.insnCount → (s.stepLimit = 0 ∨ s.steps ≠ s.stepLimit) → s.decCode = .valid →
      ∀ i, insnAt s.cells s.pc.toNat = some i → step s = exec i s)

/-- A STEP RUNS THE DECODED INSTRUCTION: cells `2 * pc` and `2 * pc + 1` are the word's two fields, and
the step is that instruction's meaning, when only the machine moves, when its move is the first listed event,
and when it is the next of an unending interleaving `f` (log 4). -/
def Obligations.StepRunsTheDecodedInstruction : Prop :=
  ∀ (s : State) (o r : Raw) (i : Instr), s.runState = .running → s.decCode = .valid →
    (s.stepLimit = 0 ∨ s.steps ≠ s.stepLimit) →
    s.cells[2 * s.pc.toNat]? = some ⟨o, false⟩ → s.cells[2 * s.pc.toNat + 1]? = some ⟨r, false⟩ →
    decodeWord (o ++ r) = .ok i →
    (s.Alone → step s = exec i s) ∧
    (∀ es, s.events = .machine :: es → step s = exec i { s with events := es }) ∧
    (∀ (f : Nat → Event) (n : Nat), s.Follows n → f n = .machine →
      stepUnder f s = exec i { s with later := .schedule (n + 1) })

/-- In a state other than RUNNING the machine holds its state (60_exceptions.md R188); that the model
then answers the same state is log 6. -/
def Obligations.AStoppedMachineHoldsItsState : Prop :=
  ∀ s : State, s.runState ≠ .running →
    (s.Alone → step s = .next s) ∧
    (∀ es, s.events = .machine :: es → step s = .next { s with events := es }) ∧
    (∀ (f : Nat → Event) (n : Nat), s.Follows n → f n = .machine →
      stepUnder f s = .next { s with later := .schedule (n + 1) })

/-- A host access of the schedule is one atomic step: a write has its effect, a read returns the state
as it stands and changes nothing of the RMI, from a list of events and in an unending interleaving `f`
(20_memory.md R64, R66; log 4, log 5). -/
def Obligations.HostAccessesAreAtomicSteps : Prop :=
  ∀ (s : State) (es : List Event) (addr : Nat) (w : HostWord),
    (s.events = .write addr w :: es → step s = .next (hostWrite addr w { s with events := es })) ∧
    (s.events = .read addr :: es →
      step s = .next { s with events := es, readData := some (hostRead addr s) }) ∧
    (∀ (f : Nat → Event) (n : Nat), s.Follows n →
      (f n = .write addr w →
        stepUnder f s = .next (hostWrite addr w { s with later := .schedule (n + 1) })) ∧
      (f n = .read addr → stepUnder f s =
        .next { s with later := .schedule (n + 1), readData := some (hostRead addr s) }))

/-- The output only grows while a run goes on: no entry appended before is changed or removed
(44_output.md R162). -/
def Obligations.OutputGrowsByAppension : Prop :=
  ∀ (n : Nat) (s t : State), s.Alone → run n s = .next t →
    s.out <+: t.out

/-- A run is a function of the program store, A, B, C and `STEP_LIMIT` at START: from two states that
agree on those, START and any number of machine steps lead to the same registers, output, run state,
fault record and step count (00_scope.md R14). -/
def Obligations.RunsAreDeterminedByTheirInputs : Prop :=
  ∀ (n : Nat) (s s' t : State), s.runState ≠ .running → s'.runState ≠ .running →
    s.decCode = .valid → s'.decCode = .valid → s.cells = s'.cells →
    s.A = s'.A → s.B = s'.B → s.C = s'.C → s.stepLimit = s'.stepLimit →
    s.events = [.write 0x00 3] → s'.events = [.write 0x00 3] → s.later = .machine → s'.later = .machine →
    run (n + 1) s = .next t →
    ∃ t', run (n + 1) s' = .next t' ∧
      t'.A = t.A ∧ t'.B = t.B ∧ t'.C = t.C ∧ t'.pc = t.pc ∧ t'.out = t.out ∧
      t'.runState = t.runState ∧ t'.faultCause = t.faultCause ∧ t'.faultPc = t.faultPc ∧
      t'.steps = t.steps ∧ t'.result = t.result

/-- A jump to itself with A nonzero goes on for as long as it is run (40_execution_cycle.md R120:
"a model must admit the infinite run"). -/
def Obligations.AJumpToItselfRunsForever : Prop :=
  ∀ (n : Nat) (raw : Raw) (s : State), s.runState = .running → s.Alone → s.decCode = .valid →
    s.stepLimit = 0 → s.A ≠ 0 → raw.toNat = 2 * s.pc.toNat →
    insnAt s.cells s.pc.toNat = some (.jumpIfANonZero raw) →
    run n s = .next { s with steps := s.steps + BitVec.ofNat 64 n }

/-- A run with a step limit stops after at most `STEP_LIMIT` instructions and one stop step
(40_execution_cycle.md R114). -/
def Obligations.ALimitedRunStops : Prop :=
  ∀ s : State, Inv s → s.runState = .running → s.Alone → s.stepLimit ≠ 0 →
    ∃ t, run (s.stepLimit.toNat - s.steps.toNat + 1) s = .next t ∧
      t.runState ≠ .running ∧ t.steps.toNat ≤ s.stepLimit.toNat ∧
      (t.runState = .limit → t.steps = s.stepLimit ∧ t.faultCause = .none)

/-- While RUNNING every host write sets `CMD_REJECTED` and nothing else, a read is answered from the
state between two steps, and a run goes the same way whatever reads and writes the host makes between
its steps (20_memory.md R67). That an access is an event of a schedule and that a read's answer is kept
is the model's form (log 4, log 5). -/
def Obligations.TheHostCannotAlterARun : Prop :=
  (∀ (s : State) (addr : Nat) (w : HostWord), s.runState = .running →
    hostWrite addr w s = { s with cmdRejected := true }) ∧
  (∀ (s : State) (addr : Nat) (es : List Event), s.runState = .running → s.events = .read addr :: es →
    step s = .next { s with events := es, readData := some (hostRead addr s) }) ∧
  (∀ (es : List Event) (s t : State), s.events = es → Event.reset ∉ es →
    (∀ m < es.length, ∃ u, run m s = .next u ∧ u.runState = .running) →
    run es.length s = .next t →
    ∃ t', run (es.count .machine) { s with events := [], later := .machine } = .next t' ∧
      runView t' = runView t)

/-- The run of a program is the source's `execute`, as far as the output buffer reaches
(40_execution_cycle.md, section of R123): the same output, the same invalid jump, a NEGATIVE_SHIFT where
the source has none, OUTPUT_OVERFLOW past 256 values, and RUNNING for as long as `execute` runs. The
reference interpreter is log 16. -/
def Obligations.RunsFollowTheSourceInterpreter : Prop :=
  ∀ (p : List Instr) (s : State) (fuel : Nat),
    (∀ i ∈ p, i.WellFormed) → p.length ≤ 32 →
    s.runState = .running → s.Alone → s.cells = encodeProgram p → s.decCode = .valid →
    s.pc = 0 → s.out = [] → s.stepLimit = 0 → s.faultCause = .none →
    match Source.execute p fuel ⟨sint s.A, sint s.B, sint s.C, 0, []⟩ with
    | .output o =>
      (o.length ≤ 256 → ∃ n t, run n s = .next t ∧ t.runState = .halted ∧
        t.out.map BitVec.toNat = o) ∧
      (256 < o.length → ∃ n t, run n s = .next t ∧ t.runState = .fault ∧
        t.faultCause = .outputOverflow ∧ t.out.map BitVec.toNat = o.take 256)
    | .invalidJumpTarget o =>
      (o.length ≤ 256 → ∃ n t, run n s = .next t ∧ t.runState = .fault ∧
        t.faultCause = .invalidJumpTarget ∧ t.out.map BitVec.toNat = o) ∧
      (256 < o.length → ∃ n t, run n s = .next t ∧ t.runState = .fault ∧
        t.faultCause = .outputOverflow)
    | .negativeShift o =>
      (o.length ≤ 256 → ∃ n t, run n s = .next t ∧ t.runState = .fault ∧
        t.faultCause = .negativeShift ∧ t.out.map BitVec.toNat = o) ∧
      (256 < o.length → ∃ n t, run n s = .next t ∧ t.runState = .fault ∧
        t.faultCause = .outputOverflow)
    | .unfinished o =>
      (o.length ≤ 256 → ∃ t, run fuel s = .next t ∧ t.runState = .running ∧
        t.out.map BitVec.toNat = o) ∧
      (256 < o.length → ∃ n t, run n s = .next t ∧ t.runState = .fault ∧
        t.faultCause = .outputOverflow)

/-! ### Reset, boot, and what every reachable state meets -/

/-- Reset sets every piece of state to its value of 10_state.md R55, whatever the state was and also
during a run, as the first listed event and as the next of an unending interleaving `f` (log 4). -/
def Obligations.ResetSetsEveryValue : Prop :=
  ∀ (f : Nat → Event) (s : State),
    ((∃ es, s.events = .reset :: es) ∨ (∃ n, s.Follows n ∧ f n = .reset)) →
    ∃ t, stepUnder f s = .next t ∧ t.A = 0 ∧ t.B = 0 ∧ t.C = 0 ∧ t.pc = 0 ∧ t.progLen = 0 ∧
      t.loadOvf = false ∧ t.decCode = .notDecoded ∧ t.decIdx = 0 ∧ t.outCount = 0 ∧ t.outIndex = 0 ∧
      t.runState = .idle ∧ t.faultCause = .none ∧ t.faultPc = 0 ∧ t.steps = 0 ∧ t.stepLimit = 0 ∧
      t.cmdRejected = false

/-- The boot sequence of 70_reset_and_hazards.md R192, without its reads, from any state that is not
RUNNING: a program of at most 64 values that decodes VALID is then running from instruction 0 with the
registers and the limit the host gave; one that does not is refused, and no run starts. -/
def Obligations.TheBootSequenceStartsTheRun : Prop :=
  ∀ (s : State) (program : List HostWord) (limit a b c : HostWord) (es : List Event) (cells : List Cell),
    s.runState ≠ .running → s.events = loadEvents program ++ startEvents limit a b c ++ es →
    program.length ≤ 64 →
    cells = program.map (fun w => if w.toNat ≤ 7 then ⟨w.extractLsb' 0 3, false⟩ else ⟨0, true⟩) →
    ((decodeProgram false cells).1 = .valid →
      run (program.length + 7) s =
        .next { s with A := a, B := b, C := c, pc := 0, cells := cells, loadOvf := false,
                       decCode := .valid, decIdx := 0, out := [], runState := .running,
                       faultCause := .none, faultPc := 0, steps := 0, stepLimit := limit,
                       cmdRejected := false, events := es }) ∧
    ((decodeProgram false cells).1 ≠ .valid →
      ∃ t, run (program.length + 7) s = .next t ∧
        t.runState = s.runState ∧ t.cmdRejected = true ∧ t.events = es)

/-- The invariant holds after reset, at every choice of the parameters (00_scope.md R6; log 1). -/
def Obligations.ResetMeetsTheInvariant : Prop :=
  Inv State.reset ∧ ∀ P : Params, Inv (State.resetAt P)

/-- EVERY STEP KEEPS THE INVARIANT: of the machine, of the host, and reset, in every interleaving; on
this hardware, and at every legal choice of the parameters and every unending interleaving `f` (00_scope.md
R6; log 4; log 1; log 20 for narrow host
words). -/
def Obligations.EveryStepKeepsTheInvariant : Prop :=
  (∀ s s' : State, Inv s → step s = .next s' → Inv s') ∧
  (∀ P : Params, P.Legal → ∀ (f : Nat → Event P) (s s' : State P), Inv s →
    stepUnder f s = .next s' → Inv s')

/-- From a state that meets the invariant a step never stops the model: a fetch always reads cells that
the last DECODE validated (20_memory.md R70), so the two stops of log 7 are never reached; on this
hardware, and at every choice of the parameters and every unending interleaving `f` (00_scope.md R6; log 4;
log 1; log 20 for narrow host words). -/
def Obligations.NoStepStopsUnderTheInvariant : Prop :=
  (∀ s : State, Inv s → ∃ t, step s = .next t) ∧
  (∀ (P : Params) (f : Nat → Event P) (s : State P), Inv s → ∃ t, stepUnder f s = .next t)

/-- Under the invariant `pc` never wraps in a run, at every legal choice of the parameters
(10_state.md R24). -/
def Obligations.ThePcNeverWraps : Prop :=
  ∀ (P : Params), P.Legal → ∀ s : State P, Inv s → s.pc.toNat < s.insnCount →
    (s.pc + 1).toNat = s.pc.toNat + 1

/-- The non-negativity law (10_state.md R22): an instruction keeps the three registers non-negative, and
a run that starts so never faults NEGATIVE_SHIFT. -/
def Obligations.NonNegativeRunsNeverFaultOnAShift : Prop :=
  (∀ (i : Instr) (s t : State), NonNegative s → exec i s = .next t → NonNegative t) ∧
  (∀ (n : Nat) (s t : State), NonNegative s → s.Alone → s.faultCause = .none →
    run n s = .next t → NonNegative t ∧ t.faultCause ≠ .negativeShift)

/-! ### The parameters (00_scope.md R6)

The statements above about `State`, `exec` and `step` are about this hardware. Those here are about the
model at any parameters `P`, of which this hardware is one instance (log 1). -/

/-- The values of R6's third column, which meet R6's constraints; `exec` and `step` are the model at
these values (00_scope.md R6). -/
def Obligations.ThisHardwareIsTheModelAtItsParameters : Prop :=
  (Config.hardware.regW = 64 ∧ Config.hardware.cellW = 3 ∧ Config.hardware.progCapRaw = 64 ∧
    Config.hardware.progCap = 32 ∧ Config.hardware.pcW = 6 ∧ Config.hardware.outCap = 256 ∧
    Config.hardware.outW = 3 ∧ Config.hardware.hostW = 64 ∧ Config.hardware.stepW = 64) ∧
  (64 ≤ Config.hardware.regW ∧ Config.hardware.progCapRaw % 2 = 0 ∧ 1 ≤ Config.hardware.progCapRaw ∧
    Config.hardware.progCapRaw ≤ 65535 ∧ 1 ≤ Config.hardware.outCap ∧ Config.hardware.outCap ≤ 65535 ∧
    Config.hardware.progCap < 2 ^ Config.hardware.pcW ∧ 3 < 2 ^ Config.hardware.pcW) ∧
  (∀ (i : Instr) (s : State), exec i s = execAt i s) ∧
  (∀ s : State, step s = stepAt s)

/-- `CONFIG` reports the parameters in its four fields (10_state.md R53), where each fits its field and
the host word has room for them; what it reads elsewhere is the model's choice, of which this says
nothing (log 20). -/
def Obligations.ConfigReportsTheParameters : Prop :=
  (∀ (P : Params), 48 ≤ P.hostW → P.progCapRaw < 2 ^ 16 → P.outCap < 2 ^ 16 → P.regW < 2 ^ 8 →
    P.pcW < 2 ^ 8 → ∀ s : State P,
      ((hostRead 0x11 s).extractLsb' 0 16).toNat = P.progCapRaw ∧
      ((hostRead 0x11 s).extractLsb' 16 16).toNat = P.outCap ∧
      ((hostRead 0x11 s).extractLsb' 32 8).toNat = P.regW ∧
      ((hostRead 0x11 s).extractLsb' 40 8).toNat = P.pcW ∧
      ∀ i, 48 ≤ i → (hostRead 0x11 s).getLsbD i = false) ∧
  (∀ s : State, hostRead 0x11 s = 0x0000064001000040)

/-- Every instruction at every legal choice of the parameters: the same rules with `REG_W`, `PC_W`,
`OUT_W` and `OUT_CAP` in them (40_execution_cycle.md, section 3; 00_scope.md R6). -/
def Obligations.TheInstructionsAtEveryParameter : Prop :=
  ∀ (P : Params), P.Legal → ∀ (v : Operand) (raw : Raw) (s : State P),
    (0 ≤ sint (resolve v s) →
      ∃ q : Word P, sint q = Int.tdiv (sint s.A) (2 ^ (sint (resolve v s)).toNat) ∧
        execAt (.shiftRightA v) s = .next { s with A := q, pc := s.pc + 1, steps := s.steps + 1 } ∧
        execAt (.shiftRightB v) s = .next { s with B := q, pc := s.pc + 1, steps := s.steps + 1 } ∧
        execAt (.shiftRightC v) s = .next { s with C := q, pc := s.pc + 1, steps := s.steps + 1 }) ∧
    (sint (resolve v s) < 0 →
      execAt (.shiftRightA v) s =
        .next { s with faultCause := .negativeShift, faultPc := s.pc, runState := .fault } ∧
      execAt (.shiftRightB v) s =
        .next { s with faultCause := .negativeShift, faultPc := s.pc, runState := .fault } ∧
      execAt (.shiftRightC v) s =
        .next { s with faultCause := .negativeShift, faultPc := s.pc, runState := .fault }) ∧
    execAt (.xorImmediateIntoB raw) s =
      .next { s with B := s.B ^^^ raw.setWidth P.regW, pc := s.pc + 1, steps := s.steps + 1 } ∧
    execAt (.truncateIntoB v) s =
      .next { s with B := resolve v s &&& 0b111, pc := s.pc + 1, steps := s.steps + 1 } ∧
    execAt (.xorBWithC raw) s =
      .next { s with B := s.B ^^^ s.C, pc := s.pc + 1, steps := s.steps + 1 } ∧
    (s.A = 0 → execAt (.jumpIfANonZero raw) s =
      .next { s with pc := s.pc + 1, steps := s.steps + 1 }) ∧
    (s.A ≠ 0 → raw.toNat % 2 = 0 → ∃ t : Pc P, t.toNat = raw.toNat / 2 ∧
      execAt (.jumpIfANonZero raw) s = .next { s with pc := t, steps := s.steps + 1 }) ∧
    (s.A ≠ 0 → raw.toNat % 2 = 1 → execAt (.jumpIfANonZero raw) s =
      .next { s with faultCause := .invalidJumpTarget, faultPc := s.pc, runState := .fault }) ∧
    (s.outCount < P.outCap → ∃ o : OutValue P, o.toNat = (resolve v s).toNat % 8 ∧
      execAt (.emit v) s =
        .next { s with out := s.out ++ [o], pc := s.pc + 1, steps := s.steps + 1 }) ∧
    (s.outCount = P.outCap → execAt (.emit v) s =
      .next { s with faultCause := .outputOverflow, faultPc := s.pc, runState := .fault })

/-- Loading at every legal choice of the parameters: a `PROG_DATA` write stores a cell while
`PROG_LEN < PROG_CAP_RAW` and sets `LOAD_OVF` at the capacity, and DECODE then reports PROGRAM_TOO_LONG
with `PROG_CAP_RAW` as its index (30_encoding.md, section 5; 00_scope.md R6; log 1). R6 does not bound
`HOST_W` from below: that a host word of fewer than 3 bits written to `PROG_DATA`, or of fewer than 4 bits
written to `CTRL`, is zero-extended is the model's choice (log 20). -/
def Obligations.LoadingAtEveryParameter : Prop :=
  ∀ (P : Params), P.Legal → ∀ (s : State P) (w : HostWord P), s.runState ≠ .running →
    (s.progLen < P.progCapRaw → ∃ c : Cell P,
      (w.toNat ≤ 7 → c.value.toNat = w.toNat ∧ c.bad = false) ∧
      (7 < w.toNat → c.value = 0 ∧ c.bad = true) ∧
      hostWrite 0x02 w s = { s with cells := s.cells ++ [c], decCode := .notDecoded, decIdx := 0 }) ∧
    (s.progLen = P.progCapRaw →
      hostWrite 0x02 w s = { s with loadOvf := true, decCode := .notDecoded, decIdx := 0 }) ∧
    (s.loadOvf = true → w.extractLsb' 0 4 = 2 →
      (hostWrite 0x00 w s).decCode = .programTooLong ∧
      (hostWrite 0x00 w s).decIdx.toNat = P.progCapRaw)

/-! ### Unending interleavings (20_memory.md R66)

A model must admit every interleaving, the unending ones too: here the events are those of any `f`. The
machine's `step` takes those of the free value `Config.schedule` (log 4). -/

/-- EVERY INTERLEAVING IS A RUN: the step after `n` others takes the `n`-th event of the interleaving, in the
state those `n` left, and from a state that meets the invariant no interleaving ever stops
(20_memory.md, section 3, R66; log 4); `step` is the step of the free one. -/
def Obligations.EveryInterleavingIsARun : Prop :=
  (∀ (P : Params) (f : Nat → Event P) (k n : Nat) (s t : State P), s.Follows k →
    runUnder f (n + 1) s = .next t →
    ∃ u, runUnder f n s = .next u ∧ u.Follows (k + n) ∧
      takeEvent (f (k + n)) { u with later := .schedule (k + n + 1) } = .next t) ∧
  (∀ P : Params, P.Legal → ∀ (f : Nat → Event P) (n : Nat) (s : State P), Inv s →
    ∃ t, runUnder f n s = .next t ∧ Inv t) ∧
  (∀ s : State, step s = stepUnder (Config.schedule Config.hardware) s)

/-- No unending interleaving of host accesses alters a run in progress: as long as it is RUNNING and not
reset, what is reached is what the machine's moves alone reach (20_memory.md, section 3, R67), so that a host
that leaves the machine no move leaves the run where it is. -/
def Obligations.NoInterleavingAltersARun : Prop :=
  ∀ (f : Nat → Event) (k n : Nat) (s t : State), s.Follows k →
    (∀ m < n, f (k + m) ≠ .reset) →
    (∀ m < n, ∃ u, runUnder f m s = .next u ∧ u.runState = .running) →
    runUnder f n s = .next t →
    ∃ t', run (machineMoves f k n) { s with later := .machine } = .next t' ∧ runView t' = runView t

/-- The infinite run of 40_execution_cycle.md R120 under a host that never stops reading and writing: it is
RUNNING after any number of events, and `STEPS` counts the machine's moves among them (20_memory.md R66,
R67; 40_execution_cycle.md R118). -/
def Obligations.AnEndlessRunMayBePolledForever : Prop :=
  ∀ (f : Nat → Event) (k n : Nat) (raw : Raw) (s : State), s.runState = .running → s.Follows k →
    s.decCode = .valid → s.stepLimit = 0 → s.A ≠ 0 → raw.toNat = 2 * s.pc.toNat →
    insnAt s.cells s.pc.toNat = some (.jumpIfANonZero raw) →
    (∀ m < n, f (k + m) ≠ .reset) →
    ∃ t, runUnder f n s = .next t ∧ t.Follows (k + n) ∧ t.runState = .running ∧ t.pc = s.pc ∧ t.A = s.A ∧
      t.B = s.B ∧ t.C = s.C ∧ t.out = s.out ∧ t.cells = s.cells ∧
      t.steps = s.steps + BitVec.ofNat 64 (machineMoves f k n)
end

