-- ==== Sys2Proof/Laws/Word.lean ====
section
/-! SUPPORT. The parameters of this hardware are legal (00_scope.md R6), and each word type has the width
R6 gives it. -/

namespace Sys2Proof

theorem hardware_legal : Config.hardware.Legal := by
  constructor <;> decide

theorem hardware_widths : Word = BitVec 64 ∧ HostWord = BitVec 64 ∧ StepWord = BitVec 64 ∧ Pc = BitVec 6 ∧
    CellValue = BitVec 3 ∧ OutValue = BitVec 3 ∧ Config.hardware.progCap = 32 :=
  ⟨rfl, rfl, rfl, rfl, rfl, rfl, rfl⟩

/-- A width of 3 bits or more holds the values 0..7. -/
theorem eight_le_two_pow {n : Nat} (h : 3 ≤ n) : 8 ≤ 2 ^ n :=
  Nat.pow_le_pow_right (n := 2) (by decide) h

/-- A raw value is unchanged by a widening to 3 bits or more and back. -/
theorem setWidth_zext_raw {n : Nat} (h : 3 ≤ n) (raw : Raw) : (zext n raw).setWidth 3 = raw := by
  have := eight_le_two_pow h
  apply BitVec.eq_of_toNat_eq
  have := raw.isLt
  simp only [zext, BitVec.toNat_setWidth]
  rw [Nat.mod_eq_of_lt (a := raw.toNat) (b := 2 ^ n) (by omega), Nat.mod_eq_of_lt (by omega)]

end Sys2Proof
end

