-- ==== Sys2Proof/Laws/Decode.lean ====
section
/-! SUPPORT. What the decoder and the encoder say of each other, field by field. -/

namespace Sys2Proof

variable {P : Params}

/-- A well-formed combo operand is what its raw value decodes to. -/
theorem comboOperand_rawBits (v : Operand) (h : v.wellFormed = true) : comboOperand v.rawBits = .ok v := by
  rcases v with raw | r
  · have key : ∀ r : Raw, (Operand.imm r).wellFormed = true → comboOperand r = .ok (.imm r) := by decide
    exact key raw h
  · cases r <;> decide

/-- A raw value that decodes to a combo operand is that operand's raw value, and the operand is well
formed. -/
theorem comboOperand_ok (raw : Raw) (v : Operand) (h : comboOperand raw = .ok v) :
    v.wellFormed = true ∧ v.rawBits = raw := by
  have raws : ∀ r : Raw, r = 0 ∨ r = 1 ∨ r = 2 ∨ r = 3 ∨ r = 4 ∨ r = 5 ∨ r = 6 ∨ r = 7 := by decide
  rcases raws raw with rfl | rfl | rfl | rfl | rfl | rfl | rfl | rfl <;> cases h <;> decide

theorem opField_append (op raw : Raw) : opField (op ++ raw) = op := by
  have key : ∀ op raw : Raw, opField (op ++ raw) = op := by decide
  exact key op raw

theorem rawField_append (op raw : Raw) : rawField (op ++ raw) = raw := by
  have key : ∀ op raw : Raw, rawField (op ++ raw) = raw := by decide
  exact key op raw

/-- A word is its two fields. -/
theorem append_fields (w : InsnWord) : opField w ++ rawField w = w := by
  have key : ∀ w : InsnWord, opField w ++ rawField w = w := by decide
  exact key w

/-- The word decoder on the concatenation of two fields. -/
@[simp] theorem decodeWord_append (op raw : Raw) : decodeWord (op ++ raw) = decodeFields op raw := by
  rw [decodeWord, opField_append, rawField_append]

/-- The fields of a well-formed instruction decode to it. -/
theorem decodeFields_bits (i : Instr) (h : i.wellFormed = true) :
    decodeFields i.opBits i.rawBits = .ok i := by
  cases i with
  | shiftRightA v | truncateIntoB v | emit v | shiftRightB v | shiftRightC v =>
    simp [decodeFields, withCombo, Instr.opBits, Instr.rawBits, comboOperand_rawBits v h]
  | xorImmediateIntoB raw | jumpIfANonZero raw | xorBWithC raw =>
    simp [decodeFields, Instr.opBits, Instr.rawBits]

/-- Fields that decode are those of what they decode to, and that is well formed. -/
theorem decodeFields_ok (op raw : Raw) (i : Instr) (h : decodeFields op raw = .ok i) :
    i.wellFormed = true ∧ i.opBits = op ∧ i.rawBits = raw := by
  have ops : ∀ op : Raw, op = 0 ∨ op = 1 ∨ op = 2 ∨ op = 3 ∨ op = 4 ∨ op = 5 ∨ op = 6 ∨ op = 7 := by
    decide
  rcases hc : comboOperand raw with e | v <;>
  rcases ops op with rfl | rfl | rfl | rfl | rfl | rfl | rfl | rfl <;>
  simp [decodeFields, withCombo, hc] at h <;> subst h <;>
  simp [Instr.wellFormed, Instr.opBits, Instr.rawBits] <;>
  exact comboOperand_ok raw _ hc

/-- Fields fail to decode only with INVALID_OPERAND, and exactly on raw 7 of a combo opcode. -/
theorem decodeFields_error (op raw : Raw) (e : DecodeError) :
    decodeFields op raw = .error e ↔
      (op ∈ [0, 2, 5, 6, 7] ∧ raw = 7) ∧ e = .invalidOperand := by
  have key : ∀ op raw : Raw, decodeFields op raw = .error .invalidOperand ↔
      (op ∈ [0, 2, 5, 6, 7] ∧ raw = 7) := by decide
  have never : ∀ op raw : Raw, decodeFields op raw ≠ .error .invalidOpcode := by decide
  cases e with
  | invalidOperand => simpa using key op raw
  | invalidOpcode => simpa using never op raw

/-- The cell of a raw value holds it. -/
@[simp] theorem raw_ofRaw (h : 3 ≤ P.cellW) (raw : Raw) : (Cell.ofRaw raw : Cell P).raw = raw :=
  setWidth_zext_raw h raw

@[simp] theorem ofRaw_bad (raw : Raw) : (Cell.ofRaw raw : Cell P).bad = false := rfl

/-- On this hardware a cell is the raw value itself. -/
@[simp] theorem ofRaw_hardware (raw : Raw) : (Cell.ofRaw raw : Cell) = ⟨raw, false⟩ :=
  congrArg (Cell.mk · false) (BitVec.setWidth_eq raw)

/-- On this hardware a cell's value is a field of an instruction as it stands. -/
@[simp] theorem raw_hardware (c : Cell) : c.raw = c.value := BitVec.setWidth_eq (n := 3) c.value

/-- The cells of one more instruction. -/
@[simp] theorem encodeProgram_cons (i : Instr) (p : List Instr) :
    encodeProgram (P := P) (i :: p) = Cell.ofRaw i.opBits :: Cell.ofRaw i.rawBits :: encodeProgram p := by
  simp [encodeProgram, encodeCells]

@[simp] theorem encodeProgram_nil : encodeProgram (P := P) [] = [] := rfl

@[simp] theorem length_encodeProgram (p : List Instr) : (encodeProgram (P := P) p).length = 2 * p.length := by
  induction p with
  | nil => rfl
  | cons i p ih => simp [ih]; omega

/-- A pair past the first is a pair of the rest. -/
@[simp] theorem cellPair_cons_succ (o r : Cell P) (rest : List (Cell P)) (k : Nat) :
    cellPair (o :: r :: rest) (k + 1) = cellPair rest k := by
  have h1 : 2 * (k + 1) = 2 * k + 1 + 1 := by omega
  have h2 : 2 * (k + 1) + 1 = 2 * k + 1 + 1 + 1 := by omega
  simp only [cellPair, h1, List.getElem?_cons_succ]

@[simp] theorem cellPair_cons_zero (o r : Cell P) (rest : List (Cell P)) :
    cellPair (o :: r :: rest) 0 = some (o, r) := rfl

/-- A VALID scan has decoded every pair. -/
theorem insnAt_of_scan_valid (cells : List (Cell P)) (idx : Nat) (h : (scanPairs idx cells).1 = .valid)
    (k : Nat) (hk : k < cells.length / 2) : ∃ i, insnAt cells k = some i := by
  induction idx, cells using scanPairs.induct generalizing k with
  | case1 idx o r rest i hd ih =>
    cases k with
    | zero => exact ⟨i, by simp [insnAt, hd, Except.toOption]⟩
    | succ k =>
      rw [scanPairs, hd] at h
      obtain ⟨j, hj⟩ := ih h k (by simp at hk; omega)
      exact ⟨j, by simpa [insnAt] using hj⟩
  | case2 idx o r rest hd => simp [scanPairs, hd] at h
  | case3 idx o r rest hd => simp [scanPairs, hd] at h
  | case4 idx c => simp at hk
  | case5 => simp at hk

/-- A program that DECODE calls VALID has an instruction at every index below `N`. -/
theorem insnAt_of_valid (ovf : Bool) (cells : List (Cell P)) (h : (decodeProgram ovf cells).1 = .valid)
    (k : Nat) (hk : k < cells.length / 2) : ∃ i, insnAt cells k = some i := by
  unfold decodeProgram at h
  split at h
  · cases h
  · split at h
    · cases h
    · exact insnAt_of_scan_valid cells 0 h k hk

/-- DECODE never answers NOT_DECODED. -/
theorem scanPairs_ne_notDecoded (idx : Nat) (cells : List (Cell P)) :
    (scanPairs idx cells).1 ≠ .notDecoded := by
  induction idx, cells using scanPairs.induct with
  | case1 idx o r rest i hd ih => simpa [scanPairs, hd] using ih
  | case2 idx o r rest hd => simp [scanPairs, hd]
  | case3 idx o r rest hd => simp [scanPairs, hd]
  | case4 idx c => simp [scanPairs]
  | case5 => simp [scanPairs]

end Sys2Proof
end

