-- ==== Sys2Proof/Laws/State.lean ====
section
/-! SUPPORT. One lemma per field per update of State, so that no later proof unfolds a record update. -/

namespace Sys2Proof.Machine

variable {P : Params} (s : State P)

/-! `complete` -/

@[simp] theorem complete_A (p : Pc P) : (complete p s).A = s.A := rfl
@[simp] theorem complete_B (p : Pc P) : (complete p s).B = s.B := rfl
@[simp] theorem complete_C (p : Pc P) : (complete p s).C = s.C := rfl
@[simp] theorem complete_pc (p : Pc P) : (complete p s).pc = p := rfl
@[simp] theorem complete_cells (p : Pc P) : (complete p s).cells = s.cells := rfl
@[simp] theorem complete_loadOvf (p : Pc P) : (complete p s).loadOvf = s.loadOvf := rfl
@[simp] theorem complete_decCode (p : Pc P) : (complete p s).decCode = s.decCode := rfl
@[simp] theorem complete_decIdx (p : Pc P) : (complete p s).decIdx = s.decIdx := rfl
@[simp] theorem complete_out (p : Pc P) : (complete p s).out = s.out := rfl
@[simp] theorem complete_outIndex (p : Pc P) : (complete p s).outIndex = s.outIndex := rfl
@[simp] theorem complete_runState (p : Pc P) : (complete p s).runState = s.runState := rfl
@[simp] theorem complete_faultCause (p : Pc P) : (complete p s).faultCause = s.faultCause := rfl
@[simp] theorem complete_faultPc (p : Pc P) : (complete p s).faultPc = s.faultPc := rfl
@[simp] theorem complete_steps (p : Pc P) : (complete p s).steps = s.steps + 1 := rfl
@[simp] theorem complete_stepLimit (p : Pc P) : (complete p s).stepLimit = s.stepLimit := rfl
@[simp] theorem complete_cmdRejected (p : Pc P) : (complete p s).cmdRejected = s.cmdRejected := rfl
@[simp] theorem complete_events (p : Pc P) : (complete p s).events = s.events := rfl
@[simp] theorem complete_later (p : Pc P) : (complete p s).later = s.later := rfl
@[simp] theorem complete_readData (p : Pc P) : (complete p s).readData = s.readData := rfl

/-! `raiseFault` -/

@[simp] theorem raiseFault_A (c : FaultCause) : (raiseFault c s).A = s.A := rfl
@[simp] theorem raiseFault_B (c : FaultCause) : (raiseFault c s).B = s.B := rfl
@[simp] theorem raiseFault_C (c : FaultCause) : (raiseFault c s).C = s.C := rfl
@[simp] theorem raiseFault_pc (c : FaultCause) : (raiseFault c s).pc = s.pc := rfl
@[simp] theorem raiseFault_cells (c : FaultCause) : (raiseFault c s).cells = s.cells := rfl
@[simp] theorem raiseFault_loadOvf (c : FaultCause) : (raiseFault c s).loadOvf = s.loadOvf := rfl
@[simp] theorem raiseFault_decCode (c : FaultCause) : (raiseFault c s).decCode = s.decCode := rfl
@[simp] theorem raiseFault_decIdx (c : FaultCause) : (raiseFault c s).decIdx = s.decIdx := rfl
@[simp] theorem raiseFault_out (c : FaultCause) : (raiseFault c s).out = s.out := rfl
@[simp] theorem raiseFault_outIndex (c : FaultCause) : (raiseFault c s).outIndex = s.outIndex := rfl
@[simp] theorem raiseFault_runState (c : FaultCause) : (raiseFault c s).runState = .fault := rfl
@[simp] theorem raiseFault_faultCause (c : FaultCause) : (raiseFault c s).faultCause = c := rfl
@[simp] theorem raiseFault_faultPc (c : FaultCause) : (raiseFault c s).faultPc = s.pc := rfl
@[simp] theorem raiseFault_steps (c : FaultCause) : (raiseFault c s).steps = s.steps := rfl
@[simp] theorem raiseFault_stepLimit (c : FaultCause) : (raiseFault c s).stepLimit = s.stepLimit := rfl
@[simp] theorem raiseFault_cmdRejected (c : FaultCause) : (raiseFault c s).cmdRejected = s.cmdRejected := rfl
@[simp] theorem raiseFault_events (c : FaultCause) : (raiseFault c s).events = s.events := rfl
@[simp] theorem raiseFault_later (c : FaultCause) : (raiseFault c s).later = s.later := rfl
@[simp] theorem raiseFault_readData (c : FaultCause) : (raiseFault c s).readData = s.readData := rfl

/-! `outAppend` -/

@[simp] theorem outAppend_A (v : OutValue P) : (outAppend v s).A = s.A := rfl
@[simp] theorem outAppend_B (v : OutValue P) : (outAppend v s).B = s.B := rfl
@[simp] theorem outAppend_C (v : OutValue P) : (outAppend v s).C = s.C := rfl
@[simp] theorem outAppend_pc (v : OutValue P) : (outAppend v s).pc = s.pc := rfl
@[simp] theorem outAppend_cells (v : OutValue P) : (outAppend v s).cells = s.cells := rfl
@[simp] theorem outAppend_loadOvf (v : OutValue P) : (outAppend v s).loadOvf = s.loadOvf := rfl
@[simp] theorem outAppend_decCode (v : OutValue P) : (outAppend v s).decCode = s.decCode := rfl
@[simp] theorem outAppend_decIdx (v : OutValue P) : (outAppend v s).decIdx = s.decIdx := rfl
@[simp] theorem outAppend_out (v : OutValue P) : (outAppend v s).out = s.out ++ [v] := rfl
@[simp] theorem outAppend_outIndex (v : OutValue P) : (outAppend v s).outIndex = s.outIndex := rfl
@[simp] theorem outAppend_runState (v : OutValue P) : (outAppend v s).runState = s.runState := rfl
@[simp] theorem outAppend_faultCause (v : OutValue P) : (outAppend v s).faultCause = s.faultCause := rfl
@[simp] theorem outAppend_faultPc (v : OutValue P) : (outAppend v s).faultPc = s.faultPc := rfl
@[simp] theorem outAppend_steps (v : OutValue P) : (outAppend v s).steps = s.steps := rfl
@[simp] theorem outAppend_stepLimit (v : OutValue P) : (outAppend v s).stepLimit = s.stepLimit := rfl
@[simp] theorem outAppend_cmdRejected (v : OutValue P) : (outAppend v s).cmdRejected = s.cmdRejected := rfl
@[simp] theorem outAppend_events (v : OutValue P) : (outAppend v s).events = s.events := rfl
@[simp] theorem outAppend_later (v : OutValue P) : (outAppend v s).later = s.later := rfl
@[simp] theorem outAppend_readData (v : OutValue P) : (outAppend v s).readData = s.readData := rfl

/-! `haltRun` -/

@[simp] theorem haltRun_A : (haltRun s).A = s.A := rfl
@[simp] theorem haltRun_B : (haltRun s).B = s.B := rfl
@[simp] theorem haltRun_C : (haltRun s).C = s.C := rfl
@[simp] theorem haltRun_pc : (haltRun s).pc = s.pc := rfl
@[simp] theorem haltRun_cells : (haltRun s).cells = s.cells := rfl
@[simp] theorem haltRun_loadOvf : (haltRun s).loadOvf = s.loadOvf := rfl
@[simp] theorem haltRun_decCode : (haltRun s).decCode = s.decCode := rfl
@[simp] theorem haltRun_decIdx : (haltRun s).decIdx = s.decIdx := rfl
@[simp] theorem haltRun_out : (haltRun s).out = s.out := rfl
@[simp] theorem haltRun_outIndex : (haltRun s).outIndex = s.outIndex := rfl
@[simp] theorem haltRun_runState : (haltRun s).runState = .halted := rfl
@[simp] theorem haltRun_faultCause : (haltRun s).faultCause = s.faultCause := rfl
@[simp] theorem haltRun_faultPc : (haltRun s).faultPc = s.faultPc := rfl
@[simp] theorem haltRun_steps : (haltRun s).steps = s.steps := rfl
@[simp] theorem haltRun_stepLimit : (haltRun s).stepLimit = s.stepLimit := rfl
@[simp] theorem haltRun_cmdRejected : (haltRun s).cmdRejected = s.cmdRejected := rfl
@[simp] theorem haltRun_events : (haltRun s).events = s.events := rfl
@[simp] theorem haltRun_later : (haltRun s).later = s.later := rfl
@[simp] theorem haltRun_readData : (haltRun s).readData = s.readData := rfl

/-! `limitRun` -/

@[simp] theorem limitRun_A : (limitRun s).A = s.A := rfl
@[simp] theorem limitRun_B : (limitRun s).B = s.B := rfl
@[simp] theorem limitRun_C : (limitRun s).C = s.C := rfl
@[simp] theorem limitRun_pc : (limitRun s).pc = s.pc := rfl
@[simp] theorem limitRun_cells : (limitRun s).cells = s.cells := rfl
@[simp] theorem limitRun_loadOvf : (limitRun s).loadOvf = s.loadOvf := rfl
@[simp] theorem limitRun_decCode : (limitRun s).decCode = s.decCode := rfl
@[simp] theorem limitRun_decIdx : (limitRun s).decIdx = s.decIdx := rfl
@[simp] theorem limitRun_out : (limitRun s).out = s.out := rfl
@[simp] theorem limitRun_outIndex : (limitRun s).outIndex = s.outIndex := rfl
@[simp] theorem limitRun_runState : (limitRun s).runState = .limit := rfl
@[simp] theorem limitRun_faultCause : (limitRun s).faultCause = s.faultCause := rfl
@[simp] theorem limitRun_faultPc : (limitRun s).faultPc = s.faultPc := rfl
@[simp] theorem limitRun_steps : (limitRun s).steps = s.steps := rfl
@[simp] theorem limitRun_stepLimit : (limitRun s).stepLimit = s.stepLimit := rfl
@[simp] theorem limitRun_cmdRejected : (limitRun s).cmdRejected = s.cmdRejected := rfl
@[simp] theorem limitRun_events : (limitRun s).events = s.events := rfl
@[simp] theorem limitRun_later : (limitRun s).later = s.later := rfl
@[simp] theorem limitRun_readData : (limitRun s).readData = s.readData := rfl

/-! `reject` -/

@[simp] theorem reject_A : (reject s).A = s.A := rfl
@[simp] theorem reject_B : (reject s).B = s.B := rfl
@[simp] theorem reject_C : (reject s).C = s.C := rfl
@[simp] theorem reject_pc : (reject s).pc = s.pc := rfl
@[simp] theorem reject_cells : (reject s).cells = s.cells := rfl
@[simp] theorem reject_loadOvf : (reject s).loadOvf = s.loadOvf := rfl
@[simp] theorem reject_decCode : (reject s).decCode = s.decCode := rfl
@[simp] theorem reject_decIdx : (reject s).decIdx = s.decIdx := rfl
@[simp] theorem reject_out : (reject s).out = s.out := rfl
@[simp] theorem reject_outIndex : (reject s).outIndex = s.outIndex := rfl
@[simp] theorem reject_runState : (reject s).runState = s.runState := rfl
@[simp] theorem reject_faultCause : (reject s).faultCause = s.faultCause := rfl
@[simp] theorem reject_faultPc : (reject s).faultPc = s.faultPc := rfl
@[simp] theorem reject_steps : (reject s).steps = s.steps := rfl
@[simp] theorem reject_stepLimit : (reject s).stepLimit = s.stepLimit := rfl
@[simp] theorem reject_cmdRejected : (reject s).cmdRejected = true := rfl
@[simp] theorem reject_events : (reject s).events = s.events := rfl
@[simp] theorem reject_later : (reject s).later = s.later := rfl
@[simp] theorem reject_readData : (reject s).readData = s.readData := rfl

/-! `accept` -/

@[simp] theorem accept_A : (accept s).A = s.A := rfl
@[simp] theorem accept_B : (accept s).B = s.B := rfl
@[simp] theorem accept_C : (accept s).C = s.C := rfl
@[simp] theorem accept_pc : (accept s).pc = s.pc := rfl
@[simp] theorem accept_cells : (accept s).cells = s.cells := rfl
@[simp] theorem accept_loadOvf : (accept s).loadOvf = s.loadOvf := rfl
@[simp] theorem accept_decCode : (accept s).decCode = s.decCode := rfl
@[simp] theorem accept_decIdx : (accept s).decIdx = s.decIdx := rfl
@[simp] theorem accept_out : (accept s).out = s.out := rfl
@[simp] theorem accept_outIndex : (accept s).outIndex = s.outIndex := rfl
@[simp] theorem accept_runState : (accept s).runState = s.runState := rfl
@[simp] theorem accept_faultCause : (accept s).faultCause = s.faultCause := rfl
@[simp] theorem accept_faultPc : (accept s).faultPc = s.faultPc := rfl
@[simp] theorem accept_steps : (accept s).steps = s.steps := rfl
@[simp] theorem accept_stepLimit : (accept s).stepLimit = s.stepLimit := rfl
@[simp] theorem accept_cmdRejected : (accept s).cmdRejected = false := rfl
@[simp] theorem accept_events : (accept s).events = s.events := rfl
@[simp] theorem accept_later : (accept s).later = s.later := rfl
@[simp] theorem accept_readData : (accept s).readData = s.readData := rfl

/-! `invalidate` -/

@[simp] theorem invalidate_A : (invalidate s).A = s.A := rfl
@[simp] theorem invalidate_B : (invalidate s).B = s.B := rfl
@[simp] theorem invalidate_C : (invalidate s).C = s.C := rfl
@[simp] theorem invalidate_pc : (invalidate s).pc = s.pc := rfl
@[simp] theorem invalidate_cells : (invalidate s).cells = s.cells := rfl
@[simp] theorem invalidate_loadOvf : (invalidate s).loadOvf = s.loadOvf := rfl
@[simp] theorem invalidate_decCode : (invalidate s).decCode = .notDecoded := rfl
@[simp] theorem invalidate_decIdx : (invalidate s).decIdx = 0 := rfl
@[simp] theorem invalidate_out : (invalidate s).out = s.out := rfl
@[simp] theorem invalidate_outIndex : (invalidate s).outIndex = s.outIndex := rfl
@[simp] theorem invalidate_runState : (invalidate s).runState = s.runState := rfl
@[simp] theorem invalidate_faultCause : (invalidate s).faultCause = s.faultCause := rfl
@[simp] theorem invalidate_faultPc : (invalidate s).faultPc = s.faultPc := rfl
@[simp] theorem invalidate_steps : (invalidate s).steps = s.steps := rfl
@[simp] theorem invalidate_stepLimit : (invalidate s).stepLimit = s.stepLimit := rfl
@[simp] theorem invalidate_cmdRejected : (invalidate s).cmdRejected = s.cmdRejected := rfl
@[simp] theorem invalidate_events : (invalidate s).events = s.events := rfl
@[simp] theorem invalidate_later : (invalidate s).later = s.later := rfl
@[simp] theorem invalidate_readData : (invalidate s).readData = s.readData := rfl

/-! `startRun` -/

@[simp] theorem startRun_A : (startRun s).A = s.A := rfl
@[simp] theorem startRun_B : (startRun s).B = s.B := rfl
@[simp] theorem startRun_C : (startRun s).C = s.C := rfl
@[simp] theorem startRun_pc : (startRun s).pc = 0 := rfl
@[simp] theorem startRun_cells : (startRun s).cells = s.cells := rfl
@[simp] theorem startRun_loadOvf : (startRun s).loadOvf = s.loadOvf := rfl
@[simp] theorem startRun_decCode : (startRun s).decCode = s.decCode := rfl
@[simp] theorem startRun_decIdx : (startRun s).decIdx = s.decIdx := rfl
@[simp] theorem startRun_out : (startRun s).out = [] := rfl
@[simp] theorem startRun_outIndex : (startRun s).outIndex = s.outIndex := rfl
@[simp] theorem startRun_runState : (startRun s).runState = .running := rfl
@[simp] theorem startRun_faultCause : (startRun s).faultCause = .none := rfl
@[simp] theorem startRun_faultPc : (startRun s).faultPc = 0 := rfl
@[simp] theorem startRun_steps : (startRun s).steps = 0 := rfl
@[simp] theorem startRun_stepLimit : (startRun s).stepLimit = s.stepLimit := rfl
@[simp] theorem startRun_cmdRejected : (startRun s).cmdRejected = s.cmdRejected := rfl
@[simp] theorem startRun_events : (startRun s).events = s.events := rfl
@[simp] theorem startRun_later : (startRun s).later = s.later := rfl
@[simp] theorem startRun_readData : (startRun s).readData = s.readData := rfl

/-! `writeReg` -/

@[simp] theorem writeReg_pc (r : Reg) (v : Word P) : (writeReg r v s).pc = s.pc := by cases r <;> rfl
@[simp] theorem writeReg_cells (r : Reg) (v : Word P) : (writeReg r v s).cells = s.cells := by cases r <;> rfl
@[simp] theorem writeReg_loadOvf (r : Reg) (v : Word P) : (writeReg r v s).loadOvf = s.loadOvf := by cases r <;> rfl
@[simp] theorem writeReg_decCode (r : Reg) (v : Word P) : (writeReg r v s).decCode = s.decCode := by cases r <;> rfl
@[simp] theorem writeReg_decIdx (r : Reg) (v : Word P) : (writeReg r v s).decIdx = s.decIdx := by cases r <;> rfl
@[simp] theorem writeReg_out (r : Reg) (v : Word P) : (writeReg r v s).out = s.out := by cases r <;> rfl
@[simp] theorem writeReg_outIndex (r : Reg) (v : Word P) : (writeReg r v s).outIndex = s.outIndex := by cases r <;> rfl
@[simp] theorem writeReg_runState (r : Reg) (v : Word P) : (writeReg r v s).runState = s.runState := by cases r <;> rfl
@[simp] theorem writeReg_faultCause (r : Reg) (v : Word P) : (writeReg r v s).faultCause = s.faultCause := by cases r <;> rfl
@[simp] theorem writeReg_faultPc (r : Reg) (v : Word P) : (writeReg r v s).faultPc = s.faultPc := by cases r <;> rfl
@[simp] theorem writeReg_steps (r : Reg) (v : Word P) : (writeReg r v s).steps = s.steps := by cases r <;> rfl
@[simp] theorem writeReg_stepLimit (r : Reg) (v : Word P) : (writeReg r v s).stepLimit = s.stepLimit := by cases r <;> rfl
@[simp] theorem writeReg_cmdRejected (r : Reg) (v : Word P) : (writeReg r v s).cmdRejected = s.cmdRejected := by cases r <;> rfl
@[simp] theorem writeReg_events (r : Reg) (v : Word P) : (writeReg r v s).events = s.events := by cases r <;> rfl
@[simp] theorem writeReg_later (r : Reg) (v : Word P) : (writeReg r v s).later = s.later := by cases r <;> rfl
@[simp] theorem writeReg_readData (r : Reg) (v : Word P) : (writeReg r v s).readData = s.readData := by cases r <;> rfl
@[simp] theorem writeReg_A_A (v : Word P) : (writeReg .A v s).A = v := rfl
@[simp] theorem writeReg_A_B (v : Word P) : (writeReg .A v s).B = s.B := rfl
@[simp] theorem writeReg_A_C (v : Word P) : (writeReg .A v s).C = s.C := rfl
@[simp] theorem writeReg_B_A (v : Word P) : (writeReg .B v s).A = s.A := rfl
@[simp] theorem writeReg_B_B (v : Word P) : (writeReg .B v s).B = v := rfl
@[simp] theorem writeReg_B_C (v : Word P) : (writeReg .B v s).C = s.C := rfl
@[simp] theorem writeReg_C_A (v : Word P) : (writeReg .C v s).A = s.A := rfl
@[simp] theorem writeReg_C_B (v : Word P) : (writeReg .C v s).B = s.B := rfl
@[simp] theorem writeReg_C_C (v : Word P) : (writeReg .C v s).C = v := rfl

/-- A register reads back what was written to it. -/
@[simp] theorem readReg_writeReg_same (r : Reg) (v : Word P) : readReg r (writeReg r v s) = v := by
  cases r <;> rfl

/-- A write leaves every other register alone. -/
theorem readReg_writeReg_other (r r' : Reg) (v : Word P) (h : r' ≠ r) :
    readReg r' (writeReg r v s) = readReg r' s := by
  cases r <;> cases r' <;> first | rfl | exact absurd rfl h

end Sys2Proof.Machine
end

