-- ==== Sys2Proof/Laws/Ops.lean ====
section
/-! SUPPORT. One lemma for each shared operation that says everything it can do. -/

namespace Sys2Proof.Machine

variable {P : Params} {w : Nat}

/-- `truncDiv` is "`sign(n) * floor(|n| / d)`" (00_scope.md R8). -/
theorem truncDiv_eq_sign_mul (n : Int) (d : Nat) :
    truncDiv n d = n.sign * (n.natAbs / d : Nat) := by
  rcases n with n | n
  · rcases n with _ | n
    · simp [truncDiv]
    · simp [truncDiv, Int.sign]
      rfl
  · simp only [truncDiv, Int.sign, Int.natAbs]
    cases d with
    | zero => simp
    | succ d => simp [Int.tdiv]

/-- The shift quotient is the exact truncated quotient, however large the amount: for an `n` that a
register of `w` bits holds, 2^w and more exceed it (41_shift.md R130). -/
theorem shiftQuotient_eq (a : BitVec w) (k : Nat) :
    shiftQuotient w (sint a) k = Int.tdiv (sint a) (2 ^ k) := by
  unfold shiftQuotient truncDiv
  split
  · rename_i h
    have lo := BitVec.le_two_mul_toInt (x := a)
    have hi := BitVec.two_mul_toInt_lt (x := a)
    have big : (2 : Int) ^ w ≤ 2 ^ k := by exact_mod_cast Nat.pow_le_pow_right (by decide) h
    symm
    rcases Int.le_total 0 (sint a) with hs | hs
    · exact Int.tdiv_eq_zero_of_lt hs (by simp only [sint] at *; omega)
    · have : Int.tdiv (-sint a) (2 ^ k) = 0 :=
        Int.tdiv_eq_zero_of_lt (by omega) (by simp only [sint] at *; omega)
      rw [Int.neg_tdiv] at this
      omega
  · rfl

/-- A truncated quotient by a power of two is no larger than the dividend, so it fits the register
(41_shift.md R130). -/
theorem tdiv_fits (a : BitVec w) (k : Nat) :
    sint (bits w (Int.tdiv (sint a) (2 ^ k))) = Int.tdiv (sint a) (2 ^ k) := by
  have lo := BitVec.le_two_mul_toInt (x := a)
  have hi := BitVec.two_mul_toInt_lt (x := a)
  have h : ((sint a).tdiv (2 ^ k)).natAbs ≤ (sint a).natAbs := by
    rw [Int.natAbs_tdiv]
    exact Nat.div_le_self _ _
  have hs : sint a ≤ 0 → (sint a).tdiv (2 ^ k) ≤ 0 := fun h => by
    have := Int.tdiv_nonneg (a := -sint a) (b := 2 ^ k) (by omega) (by positivity)
    rw [Int.neg_tdiv] at this
    omega
  simp only [sint, bits] at *
  have e : ((2 ^ w : Nat) : Int) = 2 ^ w := by push_cast; rfl
  rw [BitVec.toInt_ofInt]
  apply Int.bmod_eq_of_le <;> omega

/-- `shr` on an amount that is not negative. -/
theorem shr_of_nonneg (a v : BitVec w) (h : 0 ≤ sint v) :
    shr a v = some (bits w (Int.tdiv (sint a) (2 ^ (sint v).toNat))) := by
  rw [shr, if_neg (by omega), shiftQuotient_eq]

/-- `shr` on a negative amount. -/
theorem shr_of_neg (a v : BitVec w) (h : sint v < 0) : shr a v = none := by
  rw [shr, if_pos h]

/-- Three bits or more hold 7. -/
theorem seven_mod (hw : 3 ≤ w) : (0b111 : BitVec w).toNat = 7 := by
  have := eight_le_two_pow hw
  show 7 % 2 ^ w = 7
  exact Nat.mod_eq_of_lt (by omega)

/-- The low three bits of a pattern, as a number. -/
theorem toNat_lowThree (hw : 3 ≤ w) (v : BitVec w) : (lowThree v).toNat = v.toNat % 8 := by
  have h : v.toNat &&& 7 = v.toNat % 8 := Nat.and_two_pow_sub_one_eq_mod v.toNat 3
  rw [lowThree, BitVec.toNat_setWidth, BitVec.toNat_and]
  rw [seven_mod hw]
  omega

/-- The low three bits of a pattern. -/
theorem lowThree_eq_extract (hw : 3 ≤ w) (v : BitVec w) : lowThree v = v.extractLsb' 0 3 := by
  apply BitVec.eq_of_toNat_eq
  rw [toNat_lowThree hw]
  simp

/-- The low three bits of a pattern, widened, are `v and 7`. -/
theorem zext_lowThree (hw : 3 ≤ w) (v : BitVec w) : zext w (lowThree v) = v &&& 0b111 := by
  have h : v.toNat &&& 7 = v.toNat % 8 := Nat.and_two_pow_sub_one_eq_mod v.toNat 3
  apply BitVec.eq_of_toNat_eq
  rw [zext, BitVec.toNat_setWidth, toNat_lowThree hw, BitVec.toNat_and, seven_mod hw, h]
  exact Nat.mod_eq_of_lt (Nat.lt_of_lt_of_le (Nat.mod_lt _ (by decide)) (eight_le_two_pow hw))

/-- Everything the two reads of a combo operand do. -/
@[simp] theorem resolve_imm (raw : Raw) (s : State P) : resolve (.imm raw) s = zext P.regW raw := rfl

@[simp] theorem resolve_reg (r : Reg) (s : State P) : resolve (.reg r) s = readReg r s := rfl

/-- Appending within the capacity keeps the canonical form of the stores. -/
theorem outAppend_wf (v : OutValue P) (s : State P) (h : Memory.wf s.cells s.out = true) (hf : outFull s = false) :
    Memory.wf (outAppend v s).cells (outAppend v s).out = true := by
  simp only [Memory.wf, outFull, Bool.and_eq_true, decide_eq_true_eq,
    decide_eq_false_iff_not, State.outCount, outAppend_cells, outAppend_out, List.length_append,
    List.length_singleton] at *
  exact ⟨⟨decide_eq_true h.1.1, h.1.2⟩, by omega⟩

end Sys2Proof.Machine
end

