-- ==== Sys2Proof/Laws/Exec.lean ====
section
/-! SUPPORT. What an instruction can do, said once: every later proof cases on these lemmas instead of
unfolding the meanings. -/

namespace Sys2Proof.Machine

variable {P : Params}

/-- `exec` is the dispatch at the parameters of this hardware. -/
theorem exec_eq_execAt (i : Instr) (s : State) : exec i s = execAt i s := by
  cases i <;> rfl

/-- The shared shift: the exact quotient, or the fault. -/
theorem shiftInto_cases (dst : Reg) (v : Operand) (s : State P) :
    (0 ≤ sint (resolve v s) ∧ shiftInto dst v s = .next (complete (npc s)
      (writeReg dst (bits P.regW (Int.tdiv (sint s.A) (2 ^ (sint (resolve v s)).toNat))) s))) ∨
    (sint (resolve v s) < 0 ∧ shiftInto dst v s = .next (raiseFault .negativeShift s)) := by
  rcases Int.lt_or_le (sint (resolve v s)) 0 with h | h
  · exact .inr ⟨h, by rw [shiftInto, shr_of_neg _ _ h]⟩
  · exact .inl ⟨h, by rw [shiftInto, shr_of_nonneg _ _ h]⟩

/-- A jump goes to the next instruction or to one of instructions 0..3, or faults (43_control.md R151). -/
theorem execJump_cases (raw : Raw) (s : State P) :
    (s.A = 0 ∧ execJumpIfANonZero raw s = .next (complete (npc s) s)) ∨
    (s.A ≠ 0 ∧ raw.toNat % 2 = 0 ∧ execJumpIfANonZero raw s = .next (complete (jumpTarget raw) s)) ∨
    (s.A ≠ 0 ∧ raw.toNat % 2 = 1 ∧ execJumpIfANonZero raw s = .next (raiseFault .invalidJumpTarget s)) := by
  by_cases hA : s.A = 0
  · exact .inl ⟨hA, by simp [execJumpIfANonZero, aNonZero, hA]⟩
  · have hn : aNonZero s = true := decide_eq_true hA
    rcases Nat.mod_two_eq_zero_or_one raw.toNat with h | h
    · exact .inr (.inl ⟨hA, h, by simp [execJumpIfANonZero, hn, rawOdd, h]⟩)
    · exact .inr (.inr ⟨hA, h, by simp [execJumpIfANonZero, hn, rawOdd, h]⟩)

/-- A jump target is at most 3 (43_control.md R151). -/
theorem jumpTarget_le (raw : Raw) : (jumpTarget raw : Pc P).toNat ≤ 3 := by
  have := raw.isLt
  rw [jumpTarget, BitVec.toNat_ofNat]
  exact Nat.le_trans (Nat.mod_le _ _) (by omega)

/-- Emit appends, or faults. -/
theorem execEmit_cases (v : Operand) (s : State P) :
    (outFull s = false ∧
      execEmit v s = .next (complete (npc s) (outAppend (zext P.outW (lowThree (resolve v s))) s))) ∨
    (outFull s = true ∧ execEmit v s = .next (raiseFault .outputOverflow s)) := by
  rcases h : outFull s
  · exact .inl ⟨rfl, by simp [execEmit, h]⟩
  · exact .inr ⟨rfl, by simp [execEmit, h]⟩

/-- Everything an instruction can do. -/
theorem execAt_cases (i : Instr) (s : State P) :
    (∃ r x, execAt i s = .next (complete (npc s) (writeReg r x s))) ∨
    (∃ p : Pc P, (p = npc s ∨ p.toNat ≤ 3) ∧ execAt i s = .next (complete p s)) ∨
    (∃ v, outFull s = false ∧ execAt i s = .next (complete (npc s) (outAppend v s))) ∨
    (∃ c, c ≠ FaultCause.none ∧ execAt i s = .next (raiseFault c s)) := by
  cases i with
  | shiftRightA v =>
    rcases shiftInto_cases .A v s with ⟨-, h⟩ | ⟨-, h⟩
    · exact .inl ⟨_, _, h⟩
    · exact .inr (.inr (.inr ⟨_, by decide, h⟩))
  | shiftRightB v =>
    rcases shiftInto_cases .B v s with ⟨-, h⟩ | ⟨-, h⟩
    · exact .inl ⟨_, _, h⟩
    · exact .inr (.inr (.inr ⟨_, by decide, h⟩))
  | shiftRightC v =>
    rcases shiftInto_cases .C v s with ⟨-, h⟩ | ⟨-, h⟩
    · exact .inl ⟨_, _, h⟩
    · exact .inr (.inr (.inr ⟨_, by decide, h⟩))
  | xorImmediateIntoB raw => exact .inl ⟨.B, _, rfl⟩
  | truncateIntoB v => exact .inl ⟨.B, _, rfl⟩
  | xorBWithC raw => exact .inl ⟨.B, _, rfl⟩
  | jumpIfANonZero raw =>
    rcases execJump_cases raw s with ⟨-, h⟩ | ⟨-, -, h⟩ | ⟨-, -, h⟩
    · exact .inr (.inl ⟨_, .inl rfl, h⟩)
    · exact .inr (.inl ⟨_, .inr (jumpTarget_le raw), h⟩)
    · exact .inr (.inr (.inr ⟨_, by decide, h⟩))
  | emit v =>
    rcases execEmit_cases v s with ⟨hf, h⟩ | ⟨-, h⟩
    · exact .inr (.inr (.inl ⟨_, hf, h⟩))
    · exact .inr (.inr (.inr ⟨_, by decide, h⟩))

/-- Everything an instruction of this hardware can do. -/
theorem exec_cases (i : Instr) (s : State) :
    (∃ r x, exec i s = .next (complete (npc s) (writeReg r x s))) ∨
    (∃ p : Pc, (p = npc s ∨ p.toNat ≤ 3) ∧ exec i s = .next (complete p s)) ∨
    (∃ v, outFull s = false ∧ exec i s = .next (complete (npc s) (outAppend v s))) ∨
    (∃ c, c ≠ FaultCause.none ∧ exec i s = .next (raiseFault c s)) := by
  rw [exec_eq_execAt]
  exact execAt_cases i s

end Sys2Proof.Machine
end

