-- ==== Sys2Proof/Laws/HostPort.lean ====
section
/-! SUPPORT. What a host write can do, and that every operation on the two stores keeps their canonical
form. -/

namespace Sys2Proof.Machine

variable {P : Params}

/-- On this hardware a register and a host word have the same width, so a host access moves the pattern
as it stands (10_state.md R47). -/
@[simp] theorem regOfHost_hardware (w : HostWord) : regOfHost w = w := BitVec.signExtend_eq (w := 64) w

@[simp] theorem hostOfReg_hardware (v : Word) : hostOfReg v = v := BitVec.signExtend_eq (w := 64) v

/-- A stored cell that is bad holds 0 (10_state.md R26). -/
theorem cellOf_canonical (w : HostWord P) : (!(cellOf w).bad || (cellOf w).value == 0) = true := by
  unfold cellOf
  split <;> rfl

/-- A `CTRL` write does one of these. -/
theorem ctrlWrite_cases (w : HostWord P) (s : State P) :
    ctrlWrite w s = accept s ∨ ctrlWrite w s = progClear (accept s) ∨
    ctrlWrite w s = decodeCommand (accept s) ∨
    (s.decCode = .valid ∧ ctrlWrite w s = startRun (accept s)) ∨ ctrlWrite w s = reject s := by
  unfold ctrlWrite
  split
  · exact .inl rfl
  · exact .inr (.inl rfl)
  · exact .inr (.inr (.inl rfl))
  · unfold startCommand
    split
    · exact .inr (.inr (.inr (.inl ⟨‹_›, rfl⟩)))
    · exact .inr (.inr (.inr (.inr rfl)))
  · exact .inr (.inr (.inr (.inr rfl)))

/-- Everything a host write can do. -/
theorem hostWrite_cases (addr : Nat) (w : HostWord P) (s : State P) :
    (s.runState = .running ∧ hostWrite addr w s = reject s) ∨
    (s.runState ≠ .running ∧
      (hostWrite addr w s = ctrlWrite w s ∨ hostWrite addr w s = progData w s ∨
       hostWrite addr w s = { s with A := regOfHost w } ∨ hostWrite addr w s = { s with B := regOfHost w } ∨
       hostWrite addr w s = { s with C := regOfHost w } ∨
       hostWrite addr w s = { s with outIndex := w.setWidth 16 } ∨
       hostWrite addr w s = { s with stepLimit := zext P.stepW w } ∨ hostWrite addr w s = s)) := by
  unfold hostWrite
  split
  · exact .inl ⟨‹_›, rfl⟩
  · refine .inr ⟨‹_›, ?_⟩
    split <;> simp

/-- A `PROG_DATA` write keeps the canonical form of the stores. -/
theorem progData_wf (w : HostWord P) (s : State P) (h : Memory.wf s.cells s.out = true) :
    Memory.wf (progData w s).cells (progData w s).out = true := by
  have hc := cellOf_canonical w
  unfold progData
  split
  · rename_i hl
    simp only [Memory.wf, State.progLen, Bool.and_eq_true, decide_eq_true_eq,
      invalidate_cells, invalidate_out, List.length_append, List.length_singleton, List.all_append,
      List.all_cons, List.all_nil, Bool.and_true] at *
    exact ⟨⟨by omega, h.1.2, hc⟩, decide_eq_true h.2⟩
  · exact h

/-- PROG_CLEAR keeps the canonical form of the stores. -/
theorem progClear_wf (s : State P) (h : Memory.wf s.cells s.out = true) :
    Memory.wf (progClear s).cells (progClear s).out = true := by
  simp only [Memory.wf, progClear, invalidate_cells, invalidate_out, Bool.and_eq_true] at *
  exact ⟨⟨rfl, rfl⟩, h.2⟩

/-- START keeps the canonical form of the stores. -/
theorem startRun_wf (s : State P) (h : Memory.wf s.cells s.out = true) :
    Memory.wf (startRun s).cells (startRun s).out = true := by
  simp only [Memory.wf, startRun_cells, startRun_out, Bool.and_eq_true] at *
  exact ⟨h.1, rfl⟩

/-- Every host write keeps the canonical form of the stores. -/
theorem hostWrite_wf (addr : Nat) (w : HostWord P) (s : State P) (h : Memory.wf s.cells s.out = true) :
    Memory.wf (hostWrite addr w s).cells (hostWrite addr w s).out = true := by
  rcases hostWrite_cases addr w s with ⟨-, e⟩ | ⟨-, e | e | e | e | e | e | e | e⟩ <;> rw [e]
  · exact h
  · rcases ctrlWrite_cases w s with e | e | e | ⟨-, e⟩ | e <;> rw [e]
    · exact h
    · exact progClear_wf _ h
    · exact h
    · exact startRun_wf _ h
    · exact h
  · exact progData_wf w s h
  all_goals exact h

/-- The stores are in canonical form after reset. -/
theorem reset_wf : Memory.wf State.reset.cells State.reset.out = true := by decide

end Sys2Proof.Machine
end

