-- ==== Sys2Proof/Laws/PerInstr.lean ====
section
/-! SUPPORT. A statement about every instruction as syntax, one lemma per constructor. -/

/-- Bits [5:3] of an instruction's word are its row of 30_encoding.md R85 and bits [2:0] its raw operand
(R82, R83). -/
def Sys2Proof.Laws.EncodedFields.Statement (i : Sys2Proof.Instr) : Prop :=
  Sys2Proof.opField (Sys2Proof.encode i) = i.opBits ∧ Sys2Proof.rawField (Sys2Proof.encode i) = i.rawBits

namespace Sys2Proof.Laws.EncodedFields

theorem all (i : Instr) : Statement i := ⟨opField_append _ _, rawField_append _ _⟩

theorem shiftRightA (v : Operand) : Statement (.shiftRightA v) := all _
theorem xorImmediateIntoB (raw : Raw) : Statement (.xorImmediateIntoB raw) := all _
theorem truncateIntoB (v : Operand) : Statement (.truncateIntoB v) := all _
theorem jumpIfANonZero (raw : Raw) : Statement (.jumpIfANonZero raw) := all _
theorem xorBWithC (raw : Raw) : Statement (.xorBWithC raw) := all _
theorem emit (v : Operand) : Statement (.emit v) := all _
theorem shiftRightB (v : Operand) : Statement (.shiftRightB v) := all _
theorem shiftRightC (v : Operand) : Statement (.shiftRightC v) := all _

end Sys2Proof.Laws.EncodedFields
end

