-- ==== Sys2Proof/Laws/Step.lean ====
section
/-! SUPPORT. What a step can do. -/

namespace Sys2Proof.Machine

variable {P : Params}

/-- `step` is the step at the parameters of this hardware. -/
theorem step_eq_stepAt (s : State) : step s = stepAt s := rfl

/-- The first listed event is the next. -/
theorem nextEvent_cons (f : Nat → Event P) (s : State P) (e : Event P) (es : List (Event P))
    (h : s.events = e :: es) : nextEvent f s = (e, { s with events := es }) := by
  rw [nextEvent, h]

/-- When only the machine moves, its move is the next event, and nothing is taken off. -/
theorem nextEvent_machine (f : Nat → Event P) (s : State P) (he : s.events = []) (hl : s.later = .machine) :
    nextEvent f s = (.machine, s) := by
  rw [nextEvent, he, hl]

/-- In the unending interleaving the next event is the one whose turn it is. -/
theorem nextEvent_schedule (f : Nat → Event P) (s : State P) (n : Nat) (he : s.events = [])
    (hl : s.later = .schedule n) : nextEvent f s = (f n, { s with later := .schedule (n + 1) }) := by
  rw [nextEvent, he, hl]

/-- Taking an event off the schedule changes the schedule alone. -/
theorem nextEvent_state (f : Nat → Event P) (s : State P) :
    ∃ es l, (nextEvent f s).2 = { s with events := es, later := l } := by
  unfold nextEvent
  split
  · exact ⟨_, s.later, rfl⟩
  · split
    · exact ⟨s.events, s.later, rfl⟩
    · exact ⟨s.events, _, rfl⟩

/-- A step takes the first listed event. -/
theorem stepUnder_cons (f : Nat → Event P) (s : State P) (e : Event P) (es : List (Event P))
    (h : s.events = e :: es) : stepUnder f s = takeEvent e { s with events := es } := by
  rw [stepUnder, nextEvent_cons f s e es h]

/-- When only the machine moves, a step is the machine's. -/
theorem stepUnder_machine (f : Nat → Event P) (s : State P) (he : s.events = []) (hl : s.later = .machine) :
    stepUnder f s = machineStep s := by
  rw [stepUnder, nextEvent_machine f s he hl]; rfl

/-- In the unending interleaving a step takes the event whose turn it is. -/
theorem stepUnder_schedule (f : Nat → Event P) (s : State P) (n : Nat) (he : s.events = [])
    (hl : s.later = .schedule n) : stepUnder f s = takeEvent (f n) { s with later := .schedule (n + 1) } := by
  rw [stepUnder, nextEvent_schedule f s n he hl]

/-- When only the machine moves, a step is the machine's. -/
theorem step_machine (s : State) (he : s.events = []) (hl : s.later = .machine) : step s = machineStep s :=
  stepUnder_machine _ s he hl

/-- A step takes the first listed event. -/
theorem step_cons (s : State) (e : Event) (es : List Event) (h : s.events = e :: es) :
    step s = takeEvent e { s with events := es } := stepUnder_cons _ s e es h

/-- The fetch succeeds on a decoded program's instruction. -/
theorem fetch_eq_ok (s : State P) (i : Instr) :
    fetch s = .ok i ↔ s.decCode = .valid ∧ insnAt s.cells s.pc.toNat = some i := by
  unfold fetch
  split
  · rename_i h
    cases hi : insnAt s.cells s.pc.toNat <;> simp [h]
  · rename_i h
    simp [h]

/-- Everything the machine's step can do. -/
theorem machineStep_cases (s : State P) :
    (s.runState ≠ .running ∧ machineStep s = .next s) ∨
    (s.runState = .running ∧ s.insnCount ≤ s.pc.toNat ∧ machineStep s = .next (haltRun s)) ∨
    (s.runState = .running ∧ s.pc.toNat < s.insnCount ∧ s.stepLimit ≠ 0 ∧ s.steps = s.stepLimit ∧
      machineStep s = .next (limitRun s)) ∨
    (s.runState = .running ∧ s.pc.toNat < s.insnCount ∧ (s.stepLimit = 0 ∨ s.steps ≠ s.stepLimit) ∧
      ((∃ i, fetch s = .ok i ∧ machineStep s = execAt i s) ∨
       (∃ f, fetch s = .error f ∧ machineStep s = .fault f))) := by
  unfold machineStep
  split
  · rename_i hr
    simp only [haltTest, decide_eq_true_eq]
    split
    · exact .inr (.inl ⟨hr, ‹_›, rfl⟩)
    · rename_i hh
      simp only [limitTest, Bool.and_eq_true, decide_eq_true_eq]
      split
      · rename_i hl
        exact .inr (.inr (.inl ⟨hr, by omega, hl.1, hl.2, rfl⟩))
      · rename_i hl
        refine .inr (.inr (.inr ⟨hr, by omega, ?_, ?_⟩))
        · by_cases h0 : s.stepLimit = 0
          · exact .inl h0
          · exact .inr (fun h => hl ⟨h0, h⟩)
        · unfold instructionStep
          cases hf : fetch s with
          | ok i => exact .inl ⟨i, rfl, rfl⟩
          | error f => exact .inr ⟨f, rfl, rfl⟩
  · exact .inl ⟨‹_›, rfl⟩

end Sys2Proof.Machine
end

