-- ==== Sys2Proof/Laws/Run.lean ====
section
/-! SUPPORT. The unfolding of a run, and that it is the host interface's. -/

namespace Sys2Proof.Machine

variable {P : Params}

/-- One step, then the rest. -/
theorem runUnder_succ (f : Nat → Event P) (n : Nat) (s s' : State P) (h : stepUnder f s = .next s') :
    runUnder f (n + 1) s = runUnder f n s' := by
  rw [runUnder, h]

/-- A run of one more step that comes to a state went through a next state. -/
theorem runUnder_succ_inv (f : Nat → Event P) (n : Nat) (s t : State P)
    (h : runUnder f (n + 1) s = .next t) :
    ∃ s', stepUnder f s = .next s' ∧ runUnder f n s' = .next t := by
  rw [runUnder] at h
  split at h
  · exact ⟨_, ‹_›, h⟩
  · cases h
  · cases h

/-- A run in two parts. -/
theorem runUnder_add (f : Nat → Event P) (m n : Nat) (s u : State P) (h : runUnder f m s = .next u) :
    runUnder f (m + n) s = runUnder f n u := by
  induction m generalizing s with
  | zero => cases h; rw [Nat.zero_add]
  | succ m ih =>
    obtain ⟨s', hs, hr⟩ := runUnder_succ_inv f m s u h
    rw [show m + 1 + n = m + n + 1 by omega, runUnder_succ f _ _ _ hs, ih s' hr]

/-- No step. -/
@[simp] theorem run_zero (s : State) : run 0 s = .next s := rfl

/-- One step, then the rest. -/
theorem run_succ (n : Nat) (s s' : State) (h : step s = .next s') : run (n + 1) s = run n s' :=
  runUnder_succ _ n s s' h

/-- A run of one more step that comes to a state went through a next state. -/
theorem run_succ_inv (n : Nat) (s t : State) (h : run (n + 1) s = .next t) :
    ∃ s', step s = .next s' ∧ run n s' = .next t :=
  runUnder_succ_inv _ n s t h

/-- A run in two parts. -/
theorem run_add (m n : Nat) (s u : State) (h : run m s = .next u) : run (m + n) s = run n u :=
  runUnder_add _ m n s u h

/-- A scheduled host write happens, and the rest of the schedule follows. -/
theorem run_write (n : Nat) (addr : Nat) (w : HostWord) (s : State) (es : List Event)
    (h : s.events = .write addr w :: es) :
    run (n + 1) s = run n (hostWrite addr w { s with events := es }) :=
  run_succ n s _ (step_cons s _ es h)

/-- A machine step never changes the schedule. -/
theorem machineStep_schedule (s t : State P) (h : machineStep s = .next t) :
    t.events = s.events ∧ t.later = s.later := by
  rcases machineStep_cases s with ⟨-, e⟩ | ⟨-, -, e⟩ | ⟨-, -, -, -, e⟩ | ⟨-, -, -, ⟨i, -, e⟩ | ⟨f, -, e⟩⟩ <;>
    rw [e] at h
  · cases h; exact ⟨rfl, rfl⟩
  · cases h; exact ⟨rfl, rfl⟩
  · cases h; exact ⟨rfl, rfl⟩
  · rcases execAt_cases i s with ⟨r, x, e⟩ | ⟨p, -, e⟩ | ⟨v, -, e⟩ | ⟨c, -, e⟩ <;> rw [e] at h <;> cases h <;> simp
  · cases h

/-- A stopped machine that moves alone stays as it is. -/
theorem run_stopped (n : Nat) (s : State) (ha : s.Alone) (h : s.runState ≠ .running) :
    run n s = .next s := by
  induction n with
  | zero => rfl
  | succ n ih =>
    rw [run_succ n s s (by rw [step_machine s ha.1 ha.2, machineStep, if_neg h])]
    exact ih

/-- No event changes the rest of the schedule. -/
theorem takeEvent_schedule (e : Event P) (s t : State P) (h : takeEvent e s = .next t) :
    t.events = s.events ∧ t.later = s.later := by
  cases e with
  | machine => exact machineStep_schedule s t h
  | read a => cases h; exact ⟨rfl, rfl⟩
  | write a w =>
    cases h
    rcases hostWrite_cases a w s with ⟨-, e⟩ | ⟨-, e | e | e | e | e | e | e | e⟩ <;> rw [e]
    · exact ⟨rfl, rfl⟩
    · rcases ctrlWrite_cases w s with e | e | e | ⟨-, e⟩ | e <;> rw [e] <;> exact ⟨rfl, rfl⟩
    · unfold progData; split <;> exact ⟨rfl, rfl⟩
    all_goals exact ⟨rfl, rfl⟩
  | reset => cases h; exact ⟨rfl, rfl⟩

/-- The machine's moves of an interleaving, counted from its first event. -/
@[simp] theorem machineMoves_zero (f : Nat → Event P) (k : Nat) : machineMoves f k 0 = 0 := rfl

theorem machineMoves_succ (f : Nat → Event P) (k n : Nat) :
    machineMoves f k (n + 1) = (if f k = .machine then 1 else 0) + machineMoves f (k + 1) n := by
  have h : ((fun m => f (k + m)) ∘ Nat.succ) = fun m => f (k + 1 + m) := by
    funext m; simp only [Function.comp]; congr 1; omega
  unfold machineMoves
  rw [List.range_succ_eq_map, List.map_cons, List.count_cons, List.map_map, h, Nat.add_comm, Nat.add_zero]
  by_cases hk : f k = .machine <;> simp [hk]

end Sys2Proof.Machine
end

