-- ==== Sys2Proof/Machine/Text.lean ====
section
/-! DEFINITION. The host notations as characters: assembly text (30_encoding.md R102), the
comma-separated raw form (R102), and the source's text input (R105). What the rules leave open of
spacing is log 15. -/

namespace Sys2Proof.Machine

variable {P : Params}

/-- The pieces between the occurrences of `sep`. -/
def splitAt (sep : Char) : List Char → List (List Char)
  | [] => [[]]
  | c :: cs =>
    if c = sep then [] :: splitAt sep cs
    else
      match splitAt sep cs with
      | piece :: pieces => (c :: piece) :: pieces
      | [] => [[c]]

/-- A character that only separates words. -/
def isBlank (c : Char) : Bool := c == ' ' || c == '\t' || c == '\r'

/-- The words of a line. -/
def wordsOf (line : List Char) : List (List Char) :=
  (splitAt ' ' (line.map (fun c => if isBlank c then ' ' else c))).filter (fun word => !word.isEmpty)

/-- A decimal numeral, read on from `n`. -/
def digitsFrom : Nat → List Char → Option Nat
  | n, [] => some n
  | n, c :: cs =>
    if 48 ≤ c.toNat ∧ c.toNat ≤ 57 then digitsFrom (10 * n + (c.toNat - 48)) cs else none

/-- A decimal numeral of at least one digit. -/
def natOf (word : List Char) : Option Nat := if word.isEmpty then none else digitsFrom 0 word

/-- A decimal integer with an optional minus sign. -/
def intOf : List Char → Option Int
  | '-' :: digits => (natOf digits).map (fun n => -(n : Int))
  | word => (natOf word).map Int.ofNat

/-- The operand word of an assembly line: a decimal literal, a register, or else a label. DESIGN CHOICE: a
numeral is always the literal, so a label named by one cannot be jumped to (log 15). -/
def asmOperandOf (word : List Char) : AsmOperand :=
  match natOf word with
  | some n => .num n
  | none =>
    match word with
    | ['A'] => .reg .A
    | ['B'] => .reg .B
    | ['C'] => .reg .C
    | _ => .label (String.ofList word)

/-- `<mnemonic> <operand>` or `<mnemonic>` (30_encoding.md R102), or nothing. DESIGN CHOICE: nothing is no
instruction and no error (log 15). -/
def asmInsnWords : List (List Char) → Option (List AsmLine)
  | [] => some []
  | [mnemonic] => some [.insn (String.ofList mnemonic) .absent]
  | [mnemonic, operand] => some [.insn (String.ofList mnemonic) (asmOperandOf operand)]
  | _ :: _ :: _ :: _ => none

/-- The words of a line: `name:` defines a label, alone or before an instruction, as the programs of
95_test_vectors.md, section 4, are written. DESIGN CHOICE: any word but the empty one may be the name of a
label, and a line without words is no line of the program (log 15). -/
def asmLineWords : List (List Char) → Option (List AsmLine)
  | [] => some []
  | first :: rest =>
    if first.getLast? = some ':' then
      if first.dropLast.isEmpty then none
      else (asmInsnWords rest).map (fun lines => .label (String.ofList first.dropLast) :: lines)
    else asmInsnWords (first :: rest)

/-- One line of assembly text; a comment begins with `;` (30_encoding.md R102) and takes the rest of its
line, as in 95_test_vectors.md, section 4. None where it is no line of the notation. -/
def asmLineOf (line : List Char) : Option (List AsmLine) :=
  asmLineWords (wordsOf (line.takeWhile (fun c => c != ';')))

/-- The lines of an assembly text. -/
def asmLinesOf : List (List Char) → Option (List AsmLine)
  | [] => some []
  | line :: rest =>
    match asmLineOf line, asmLinesOf rest with
    | some l, some ls => some (l ++ ls)
    | _, _ => none

/-- The program an assembly text assembles to (30_encoding.md R102 to R104). -/
def assembleText (text : List Char) : Option (List Instr) :=
  (asmLinesOf (splitAt '\n' text)).bind assemble

/-- One integer between commas, as the word the host writes (30_encoding.md R105). -/
def wordOf (piece : List Char) : Option (HostWord P) :=
  match wordsOf piece with
  | [word] => (intOf word).bind intWord
  | _ => none

/-- The words of pieces between commas. -/
def rawWords : List (List Char) → Option (List (HostWord P))
  | [] => some []
  | piece :: rest =>
    match wordOf piece, rawWords rest with
    | some w, some ws => some (w :: ws)
    | _, _ => none

/-- The raw form, a comma-separated list of raw values (30_encoding.md R102); nothing but blanks is the
empty program (R80). -/
def rawForm (text : List Char) : Option (List (HostWord P)) :=
  if (wordsOf text).isEmpty then some [] else rawWords (splitAt ',' text)

/-- What follows `pre`, where `text` begins with it. -/
def afterPrefix (pre text : List Char) : Option (List Char) :=
  if pre.isPrefixOf text then some (text.drop pre.length) else none

/-- `Register <name>: <integer>` (30_encoding.md R105). -/
def registerLine (name : Char) (line : List Char) : Option (HostWord P) :=
  (afterPrefix (['R', 'e', 'g', 'i', 's', 't', 'e', 'r', ' '] ++ [name, ':']) line).bind wordOf

/-- `Program: <int>,<int>,...` (30_encoding.md R105). -/
def programLine (line : List Char) : Option (List (HostWord P)) :=
  (afterPrefix ['P', 'r', 'o', 'g', 'r', 'a', 'm', ':'] line).bind rawForm

/-- The source's text input (30_encoding.md R105): the raw program and the three registers, or none
where the host must refuse it. -/
def readInput (text : List Char) : Option (List (HostWord P) × HostWord P × HostWord P × HostWord P) :=
  match splitAt '\n' text with
  | lineA :: lineB :: lineC :: blank :: lineP :: rest =>
    if (wordsOf blank).isEmpty && rest.all (fun l => (wordsOf l).isEmpty) then
      match programLine lineP, registerLine 'A' lineA, registerLine 'B' lineB, registerLine 'C' lineC with
      | some program, some a, some b, some c => some (program, a, b, c)
      | _, _, _, _ => none
    else none
  | _ => none

/-- The host writes that load and start what a text input says (30_encoding.md R105;
70_reset_and_hazards.md R192). -/
def inputEvents (limit : HostWord P) (text : List Char) : Option (List (Event P)) :=
  (readInput text).map (fun input =>
    loadEvents input.1 ++ startEvents limit input.2.1 input.2.2.1 input.2.2.2)

end Sys2Proof.Machine
end

