-- ==== Sys2Proof/Tests/Slice0.lean ====
section
/-! SUPPORT. The model's own tests: the well-formedness smoke test, words written out from the encodings
of the spec, the vectors of 95_test_vectors.md, and for each statement with hypotheses a witness that
meets them together. -/

namespace Sys2Proof.Tests

open Sys2Proof Sys2Proof.Machine

/-- The next state, where there is one. -/
def nextOf : Host.Outcome State Fault Refusal → Option State
  | .next s => some s
  | .fault _ => none
  | .refused _ => none

/-- The one-instruction program `w` about to run with these registers. -/
def start (w : Nat) (a b c : Int) : State :=
  { State.reset.withFetchWord 6 w with A := bits 64 a, B := bits 64 b, C := bits 64 c }

/-- The state after its one instruction. -/
def after (w : Nat) (a b c : Int) : Option State := nextOf (step (start w a b c))

/-! ### Well-formedness: an ill-formed term for each check -/

theorem test_ill_formed_shiftRightA : ¬(Instr.shiftRightA (.imm 4)).WellFormed := by decide
theorem test_ill_formed_truncateIntoB : ¬(Instr.truncateIntoB (.imm 5)).WellFormed := by decide
theorem test_ill_formed_emit : ¬(Instr.emit (.imm 7)).WellFormed := by decide
theorem test_ill_formed_shiftRightB : ¬(Instr.shiftRightB (.imm 6)).WellFormed := by decide
theorem test_ill_formed_shiftRightC : ¬(Instr.shiftRightC (.imm 4)).WellFormed := by decide
theorem test_well_formed_literals : (Instr.xorImmediateIntoB 7).WellFormed ∧
    (Instr.jumpIfANonZero 7).WellFormed ∧ (Instr.xorBWithC 7).WellFormed := by decide

/-! ### Decoding: each constructor's word, bit by bit from 30_encoding.md R82, R85, R89 -/

theorem test_decode_shiftRightA : decodeWord 0b000001 = .ok (.shiftRightA (.imm 1)) := by decide
theorem test_decode_xorImmediateIntoB : decodeWord 0b001111 = .ok (.xorImmediateIntoB 7) := by decide
theorem test_decode_truncateIntoB : decodeWord 0b010110 = .ok (.truncateIntoB (.reg .C)) := by decide
theorem test_decode_jumpIfANonZero : decodeWord 0b011110 = .ok (.jumpIfANonZero 6) := by decide
theorem test_decode_xorBWithC : decodeWord 0b100100 = .ok (.xorBWithC 4) := by decide
theorem test_decode_emit : decodeWord 0b101100 = .ok (.emit (.reg .A)) := by decide
theorem test_decode_shiftRightB : decodeWord 0b110101 = .ok (.shiftRightB (.reg .B)) := by decide
theorem test_decode_shiftRightC : decodeWord 0b111011 = .ok (.shiftRightC (.imm 3)) := by decide

/-- 30_encoding.md R91: the five illegal words. -/
theorem test_illegal_words : ∀ w ∈ [0x07, 0x17, 0x2F, 0x37, 0x3F], decodeTableWord 6 w = none := by decide

/-- 30_encoding.md R90, R91: of the 64 words exactly those five are illegal. -/
theorem test_legal_words : ∀ op raw : BitVec 3,
    (decodeTableWord 6 (op ++ raw).toNat).isSome = !([0x07, 0x17, 0x2F, 0x37, 0x3F].contains (op ++ raw).toNat) := by
  decide

/-- No word has a bit above bit 5. -/
theorem test_no_seventh_bit : decodeTableWord 8 0x40 = none := by decide

/-- The rows of opcode_table.json, by match value: the step after reset runs the row's instruction. -/
theorem test_each_row_runs_after_reset : ∀ w ∈ [0x00, 0x08, 0x10, 0x18, 0x20, 0x28, 0x30, 0x38],
    (nextOf (step (State.reset.withFetchWord 8 w))).map (fun t => (t.steps, t.pc)) = some (1, 1) := by decide

/-! ### DECODE vectors (95_test_vectors.md, section 2) -/

/-- The cells of raw values. -/
def cellsOf (raws : List HostWord) : List Cell := raws.map cellOf

theorem test_D1 : decodeProgram false ([] : List Cell) = (.valid, 0) := by decide
theorem test_D5 : decodeProgram false (cellsOf [3, 7]) = (.valid, 0) := by decide
theorem test_D6 : decodeProgram false (cellsOf [4, 7, 5, 7]) = (.invalidOperand, 3) := by decide
theorem test_D8 : decodeProgram false (cellsOf [0, 7, 1]) = (.malformedProgram, 3) := by decide
theorem test_D10 : decodeProgram false (cellsOf [0, 1, 2, 9]) = (.invalidOperand, 3) := by decide
theorem test_D11 : decodeProgram false (cellsOf [9, 9]) = (.invalidOpcode, 0) := by decide
theorem test_D12 : decodeProgram false (cellsOf [0xFFFFFFFFFFFFFFFF, 0]) = (.invalidOpcode, 0) := by decide
theorem test_D13 : decodeProgram true (List.replicate 64 (⟨0, false⟩ : Cell)) = (.programTooLong, 64) :=
  (fun _ => rfl : ∀ cells : List Cell, decodeProgram true cells = (.programTooLong, 64)) _

/-! ### One-instruction vectors (95_test_vectors.md, section 3) -/

theorem test_S4 : (after 0o01 (-5) 0 0).map (·.A) = some (bits 64 (-2)) := by decide
theorem test_S9 : (after 0o05 (-2 ^ 63) 63 0).map (·.A) = some (bits 64 (-1)) := by decide
theorem test_S16 : (after 0o65 1024 3 0).map (fun t => (t.A, t.B)) = some (1024, 128) := by decide
theorem test_S17 : (after 0o64 (-3) 0 0).map (fun t => (t.B, t.faultCause)) = some (0, .negativeShift) := by decide
theorem test_S18 : (after 0o73 117440 0 0).map (fun t => (t.A, t.C)) = some (117440, 14680) := by decide
theorem test_S20 : (after 0o75 12345 64 0).map (·.C) = some 0 := by decide
theorem test_B3 : (after 0o14 1 0 0).map (·.B) = some 4 := by decide
theorem test_B4 : (after 0o13 0 (-1) 0).map (·.B) = some (bits 64 (-4)) := by decide
theorem test_B8 : (after 0o24 (-6) 0 0).map (·.B) = some 2 := by decide
theorem test_B9 : (after 0o25 0 (-8) 0).map (·.B) = some 0 := by decide
theorem test_B12 : (after 0o47 0 6 3).map (fun t => (t.B, t.C)) = some (5, 3) := by decide
theorem test_B15 : (after 0o40 0 (-5) (-3)).map (·.B) = some 6 := by decide
theorem test_W1 : (after 0o36 1 0 0).map (·.pc) = some 3 := by decide
theorem test_W2 : (after 0o31 1 0 0).map (fun t => (t.runState, t.faultCause, t.faultPc, t.pc, t.steps)) =
    some (.fault, .invalidJumpTarget, 0, 0, 0) := by decide
theorem test_E6 : (after 0o56 0 0 15).map (·.out) = some [7] := by decide
theorem test_E9 (s : State) (h : s.out.length = 256) :
    exec (.emit (.imm 0)) s =
      .next { s with faultCause := .outputOverflow, faultPc := s.pc, runState := .fault } := by
  have e : outFull s = true := decide_eq_true (Nat.le_of_eq h.symm)
  show execEmit (.imm 0) s = _
  simp only [execEmit, e, if_true]
  rfl

/-! ### Host and run control (10_state.md R40 to R54; 95_test_vectors.md, section 3.5) -/

theorem test_X6 : hostWrite 0x00 3 State.reset = { State.reset with cmdRejected := true } := by decide
theorem test_X7 : (hostWrite 0x00 0 (hostWrite 0x00 9 State.reset)).cmdRejected = false ∧
    (hostWrite 0x00 9 State.reset).cmdRejected = true := by decide
theorem test_CONFIG : hostRead 0x11 State.reset = 0x0000064001000040 := by decide
theorem test_STATUS : hostRead 0x01 { State.reset with runState := .limit, decCode := .valid, cmdRejected := true } =
    0b011100 := by decide

/-! ### Assembly (30_encoding.md R102 to R104; program P1 of 95_test_vectors.md) -/

theorem test_assemble_P1 : (assemble [.label "loop", .insn "ShiftRightA" (.num 1), .insn "out" (.reg .A),
    .insn "JumpIfANonZero" (.label "loop")]).map programWords = some ([0, 1, 5, 4, 3, 0] : List HostWord) := by decide
theorem test_assembleText_P1 : (assembleText "loop:  ShiftRightA 1   ; 0,1\n       Emit A ; 5,4\n\n jnz loop\n".toList).map
    programWords = some ([0, 1, 5, 4, 3, 0] : List HostWord) := by decide
theorem test_readInput : readInput "Register A: 729\nRegister B: 0\nRegister C: -5\n\nProgram: 0,1,5,4,3,0\n".toList =
    some (([0, 1, 5, 4, 3, 0] : List HostWord), (729 : HostWord), (0 : HostWord), (bits 64 (-5) : HostWord)) := by decide
theorem test_assemble_two_labels : assemble [.label "x", .label "x"] = none := by decide

/-! ### Witnesses: states that meet the hypotheses of the statements, clause by clause -/

/-- A state with a decoded two-instruction program (XorImmediateIntoB 5; JumpIfANonZero 1), idle. -/
def loaded : State :=
  { State.reset with cells := cellsOf [1, 5, 3, 1], decCode := .valid, decIdx := 0 }

/-- The same in a run from instruction 0 with a limit of 1. -/
def running : State := { loaded with runState := .running, stepLimit := 1 }

/-- A run of a jump to its own index. -/
def looping : State := start 0o30 1 0 0

theorem test_inv_running : Inv running := by
  constructor <;> decide

theorem test_inv_looping : Inv looping := by
  constructor <;> decide

theorem witness_OnlyRawSevenOnAComboOpcodeIsIllegal :
    ((7 : Raw) ∈ [0, 2, 5, 6, 7] ∧ (7 : Raw) = 7) ∧ ¬((7 : Raw) ∈ [0, 2, 5, 6, 7] ∧ (6 : Raw) = 7) ∧
    ¬((1 : Raw) ∈ [0, 2, 5, 6, 7] ∧ (7 : Raw) = 7) := by decide
theorem witness_ComboOperandsResolve : (0 : Raw).toNat ≤ 3 ∧ (3 : Raw).toNat ≤ 3 := by decide
theorem witness_DecodeAndEncodeAgree : (Instr.emit (.imm 3)).WellFormed ∧
    decodeWord 0b101011 = .ok (.emit (.imm 3)) := by decide
theorem witness_ValidProgramsAreTheEncodedOnes :
    (∀ i ∈ [Instr.emit (.reg .A), .jumpIfANonZero 7], i.WellFormed) ∧
    1 < [Instr.emit (.reg .A), .jumpIfANonZero 7].length ∧
    (decodeProgram false (cellsOf [5, 4, 3, 7])).1 = .valid := by decide
theorem witness_DecodeReports_too_long :
    ({ loaded with loadOvf := true } : State).runState ≠ .running ∧ (0xF2 : Word).extractLsb' 0 4 = 2 ∧
    ({ loaded with loadOvf := true } : State).loadOvf = true := by decide
theorem witness_DecodeReports_odd :
    ({ loaded with cells := cellsOf [1] } : State).runState ≠ .running ∧ (2 : Word).extractLsb' 0 4 = 2 ∧
    ({ loaded with cells := cellsOf [1] } : State).loadOvf = false ∧
    ({ loaded with cells := cellsOf [1] } : State).progLen % 2 = 1 := by decide
theorem witness_DecodeReports_valid : loaded.runState ≠ .running ∧ (2 : Word).extractLsb' 0 4 = 2 ∧
    loaded.loadOvf = false ∧ loaded.progLen % 2 = 0 ∧
    (∀ k o r, cellPair loaded.cells k = some (o, r) → pairAccepted o r) := by
  refine ⟨by decide, by decide, by decide, by decide, ?_⟩
  intro k o r h
  have hk : k < 2 := by
    by_contra hk
    have : loaded.cells[2 * k]? = none := List.getElem?_eq_none (by show 4 ≤ _; omega)
    simp [cellPair, this] at h
  have : k = 0 ∨ k = 1 := by omega
  rcases this with rfl | rfl <;> cases h <;> exact ⟨by decide, by decide, by decide⟩
theorem witness_DecodeReports_first_pair_bad_opcode :
    cellPair (cellsOf [9, 9]) 0 = some (⟨0, true⟩, ⟨0, true⟩) ∧
    (∀ j < 0, ∀ o' r', cellPair (cellsOf [9, 9]) j = some (o', r') → pairAccepted o' r') ∧
    (⟨0, true⟩ : Cell).bad = true := ⟨by decide, by intro j hj; omega, by decide⟩
theorem witness_DecodeReports_second_pair_bad_operand :
    cellPair (cellsOf [4, 7, 5, 7]) 1 = some (⟨5, false⟩, ⟨7, false⟩) ∧
    (∀ j < 1, ∀ o' r', cellPair (cellsOf [4, 7, 5, 7]) j = some (o', r') → pairAccepted o' r') ∧
    (⟨5, false⟩ : Cell).bad = false ∧ ((5 : Raw) ∈ [0, 2, 5, 6, 7] ∧ (7 : Raw) = 7) := by
  refine ⟨by decide, ?_, by decide, by decide⟩
  intro j hj o' r' h
  obtain rfl : j = 0 := by omega
  cases h
  exact ⟨by decide, by decide, by decide⟩
theorem witness_DecodeIsPureAndRepeatable : loaded.runState ≠ .running ∧
    ({ loaded with A := 7, decCode := .notDecoded } : State).runState ≠ .running ∧
    loaded.loadOvf = ({ loaded with A := 7, decCode := .notDecoded } : State).loadOvf ∧
    loaded.cells = ({ loaded with A := 7, decCode := .notDecoded } : State).cells := by decide
theorem witness_ProgClearEmptiesTheStore : loaded.runState ≠ .running ∧ (0x11 : Word).extractLsb' 0 4 = 1 := by
  decide
theorem witness_ProgDataAppendsOneCell : loaded.runState ≠ .running ∧ loaded.progLen < 64 ∧
    (7 : Word).toNat ≤ 7 ∧ 7 < (8 : Word).toNat ∧
    ({ loaded with cells := List.replicate 64 ⟨0, false⟩ } : State).runState ≠ .running ∧
    ({ loaded with cells := List.replicate 64 ⟨0, false⟩ } : State).progLen = 64 :=
  ⟨by decide, by decide, by decide, by decide, fun h => RunState.noConfusion h, List.length_replicate⟩
theorem witness_EveryInstructionHasAnAssemblyForm : (Operand.imm 3).wellFormed = true ∧
    (Operand.reg .C).wellFormed = true := by decide
theorem witness_AssembledProgramsAreWellFormed :
    assemble [.insn "Emit" (.reg .B)] = some [.emit (.reg .B)] := by decide
theorem witness_PseudoInstructionsAssemble : ([("a", 3), ("b", 4)] : List (String × Nat)).lookup "a" = some 3 ∧
    ([("a", 3), ("b", 4)] : List (String × Nat)).lookup "b" = some 4 ∧ 3 ≤ 3 ∧ 3 < 4 := by decide
theorem witness_HostIntegersInRangeHavePatterns :
    ((-2 : Int) ^ 63 ≤ -2 ^ 63 ∧ (-2 : Int) ^ 63 < 2 ^ 63) ∧ (-2 ^ 63 - 1 : Int) < -2 ^ 63 ∧
    (2 : Int) ^ 63 ≤ 2 ^ 63 := by decide
theorem witness_CtrlCommandField : loaded.runState ≠ .running ∧ (0x10 : Word).extractLsb' 0 4 = 0 ∧
    4 ≤ ((4 : Word).extractLsb' 0 4).toNat ∧ (0xF3 : Word).extractLsb' 0 4 = (3 : Word).extractLsb' 0 4 := by decide
theorem witness_StatusWordLayout : State.reset.runState = .idle ∧ running.runState = .running ∧
    (haltRun running).runState = .halted ∧ (raiseFault .negativeShift running).runState = .fault ∧
    (limitRun running).runState = .limit := by decide
theorem witness_ReadOnlyRegistersRead : Memory.wf loaded.cells loaded.out = true ∧
    Memory.wf (List.replicate 64 (⟨7, false⟩ : Cell)) (List.replicate 256 7) = true := by
  have h (n m : Nat) (hn : n ≤ 64) (hm : m ≤ 256) :
      Memory.wf (List.replicate n (⟨7, false⟩ : Cell)) (List.replicate m 7) = true := by
    simp [Memory.wf, hn, hm]
  exact ⟨by decide, h 64 256 (Nat.le_refl _) (Nat.le_refl _)⟩
theorem witness_HostSetsTheRegisters : loaded.runState ≠ .running := by decide
theorem witness_OutDataReadsTheSelectedEntry :
    ({ loaded with out := [5], outIndex := 0 } : State).outIndex.toNat <
      ({ loaded with out := [5], outIndex := 0 } : State).out.length ∧
    ({ loaded with out := [5], outIndex := 1 } : State).out.length ≤
      ({ loaded with out := [5], outIndex := 1 } : State).outIndex.toNat ∧
    ({ loaded with out := [5], outIndex := 1 } : State).runState ≠ .running := by decide
theorem witness_UnmappedAndReadOnlyAccesses : 0x11 < 0x12 ∧
    0x11 ∉ [0x00, 0x02, 0x06, 0x07, 0x08, 0x0B, 0x0E] ∧ loaded.runState ≠ .running ∧
    running.runState = .running := by decide
theorem witness_ShiftRightAMeaning : comboOperand 5 = .ok (.reg .B) ∧
    0 ≤ sint (resolve (.reg .B) (start 0o05 (-2 ^ 63) 0 0)) ∧
    0 ≤ sint (resolve (.reg .B) (start 0o05 (-2 ^ 63) 64 0)) ∧
    sint (resolve (.reg .B) (start 0o05 1 (-1) 0)) < 0 := by decide
theorem witness_ShiftRightBAndCMeaning : comboOperand 4 = .ok (.reg .A) ∧
    0 ≤ sint (resolve (.reg .A) (start 0o64 (2 ^ 63 - 1) 0 0)) ∧
    sint (resolve (.reg .A) (start 0o64 (-2 ^ 63) 0 0)) < 0 := by decide
theorem witness_ShiftFamilyLaws : 64 ≤ 64 ∧ 0 ≤ sint (5 : Word) ∧ 63 < 64 ∧ 0 ≤ sint (64 : Word) ∧
    (2 ^ 63 - 2) + 1 < 2 ^ 63 ∧ shr (100 : Word) 2 = some 25 ∧ sint (bits 64 (-1)) ≤ 0 := by decide
theorem witness_TruncateIntoBMeaning : comboOperand 6 = .ok (.reg .C) := by decide
theorem witness_JumpIfANonZeroMeaning : (start 0o37 0 0 0).A = 0 ∧ (start 0o36 (-1) 0 0).A ≠ 0 ∧
    (6 : Raw).toNat % 2 = 0 ∧ (7 : Raw).toNat % 2 = 1 := by decide
theorem witness_EmitMeaning : comboOperand 4 = .ok (.reg .A) ∧
    ({ loaded with out := List.replicate 255 0 } : State).outCount < 256 ∧
    ({ loaded with out := List.replicate 256 0 } : State).outCount = 256 := by
  have h (n : Nat) : ({ loaded with out := List.replicate n 0 } : State).outCount = n :=
    List.length_replicate
  exact ⟨by decide, by rw [h]; decide, h 256⟩
theorem witness_FaultCausesAreExactly : ({ loaded with out := List.replicate 256 0 } : State).outCount ≤ 256 :=
  Nat.le_of_eq List.length_replicate
theorem witness_InstructionsWriteOnlyTheirDestination :
    exec (.xorBWithC 0) (start 0o40 0 6 3) =
      .next { start 0o40 0 6 3 with B := 5, pc := 1, steps := 1 } := by rfl
theorem witness_StartBeginsARunOrIsRefused : loaded.runState ≠ .running ∧ (3 : Word).extractLsb' 0 4 = 3 ∧
    loaded.decCode = .valid ∧ State.reset.runState ≠ .running ∧ State.reset.decCode ≠ .valid := by decide
theorem witness_HaltThenLimitThenInstruction : running.runState = .running ∧ running.Alone ∧
    ({ running with pc := 2 } : State).insnCount ≤ ({ running with pc := 2 } : State).pc.toNat ∧
    ({ running with steps := 1 } : State).pc.toNat < ({ running with steps := 1 } : State).insnCount ∧
    ({ running with steps := 1 } : State).stepLimit ≠ 0 ∧
    ({ running with steps := 1 } : State).steps = ({ running with steps := 1 } : State).stepLimit ∧
    running.steps ≠ running.stepLimit ∧ running.decCode = .valid ∧
    insnAt running.cells running.pc.toNat = some (.xorImmediateIntoB 5) := by decide
theorem witness_StepRunsTheDecodedInstruction : running.runState = .running ∧ running.decCode = .valid ∧
    (running.stepLimit = 0 ∨ running.steps ≠ running.stepLimit) ∧
    running.cells[2 * running.pc.toNat]? = some ⟨1, false⟩ ∧
    running.cells[2 * running.pc.toNat + 1]? = some ⟨5, false⟩ ∧
    decodeWord ((1 : Raw) ++ (5 : Raw)) = .ok (.xorImmediateIntoB 5) ∧ running.Alone ∧
    ({ running with events := [.machine, .reset] } : State).events = .machine :: [.reset] ∧
    ({ running with later := .schedule 7 } : State).Follows 7 := by decide
theorem witness_AStoppedMachineHoldsItsState : loaded.runState ≠ .running ∧ loaded.Alone ∧
    ({ loaded with events := [.machine] } : State).events = .machine :: [] ∧
    ({ loaded with later := .schedule 0 } : State).Follows 0 := by decide
theorem witness_HostAccessesAreAtomicSteps :
    ({ running with events := [.write 6 1, .machine] } : State).events = .write 6 1 :: [.machine] ∧
    ({ running with events := [.read 1] } : State).events = .read 1 :: [] ∧
    ({ running with later := .schedule 3 } : State).Follows 3 := by decide
theorem witness_OutputGrowsByAppension : (start 0o51 0 0 0).Alone ∧
    run 1 (start 0o51 0 0 0) = .next { start 0o51 0 0 0 with out := [1], pc := 1, steps := 1 } := ⟨⟨rfl, rfl⟩, rfl⟩
theorem witness_RunsAreDeterminedByTheirInputs :
    let s : State := { loaded with events := [.write 0x00 3] }
    let s' : State := { s with pc := 5, out := [1], steps := 9, outIndex := 3, cmdRejected := true }
    s.runState ≠ .running ∧ s'.runState ≠ .running ∧ s.decCode = .valid ∧ s'.decCode = .valid ∧
    s.cells = s'.cells ∧ s.A = s'.A ∧ s.B = s'.B ∧ s.C = s'.C ∧ s.stepLimit = s'.stepLimit ∧
    s.events = [.write 0x00 3] ∧ s'.events = [.write 0x00 3] ∧ s.later = .machine ∧ s'.later = .machine ∧
    run 1 s = .next { s with runState := .running, events := [] } := by
  refine ⟨by decide, by decide, rfl, rfl, rfl, rfl, rfl, rfl, rfl, rfl, rfl, rfl, rfl, rfl⟩
theorem witness_AJumpToItselfRunsForever : looping.runState = .running ∧ looping.Alone ∧
    looping.decCode = .valid ∧ looping.stepLimit = 0 ∧ looping.A ≠ 0 ∧ (0 : Raw).toNat = 2 * looping.pc.toNat ∧
    insnAt looping.cells looping.pc.toNat = some (.jumpIfANonZero 0) := by decide
theorem witness_ALimitedRunStops : Inv running ∧ running.runState = .running ∧ running.Alone ∧
    running.stepLimit ≠ 0 := ⟨test_inv_running, by decide, by decide, by decide⟩
theorem witness_TheHostCannotAlterARun :
    let es : List Event := [.write 6 9, .machine]
    let s : State := { running with events := es }
    s.runState = .running ∧ s.events = es ∧ Event.reset ∉ es ∧
    (∀ m < es.length, ∃ u, run m s = .next u ∧ u.runState = .running) ∧
    run es.length s = .next { s with B := 5, pc := 1, steps := 1, cmdRejected := true, events := [] } := by
  refine ⟨rfl, rfl, by decide, ?_, rfl⟩
  intro m hm
  have : m = 0 ∨ m = 1 := by simp at hm; omega
  rcases this with rfl | rfl
  · exact ⟨_, rfl, rfl⟩
  · exact ⟨_, rfl, rfl⟩
theorem witness_TheHostCannotAlterARun_read : running.runState = .running ∧
    ({ running with events := [.read 0x0D] } : State).events = .read 0x0D :: [] := by decide
theorem witness_RunsFollowTheSourceInterpreter :
    (∀ i ∈ [Instr.emit (.reg .A)], i.WellFormed) ∧ [Instr.emit (.reg .A)].length ≤ 32 ∧
    (start 0o54 5 0 0).runState = .running ∧ (start 0o54 5 0 0).Alone ∧
    (start 0o54 5 0 0).cells = encodeProgram [.emit (.reg .A)] ∧ (start 0o54 5 0 0).decCode = .valid ∧
    (start 0o54 5 0 0).pc = 0 ∧ (start 0o54 5 0 0).out = [] ∧ (start 0o54 5 0 0).stepLimit = 0 ∧
    (start 0o54 5 0 0).faultCause = .none ∧
    Source.execute [.emit (.reg .A)] 2 ⟨5, 0, 0, 0, []⟩ = .output [5] := by decide
theorem witness_ResetSetsEveryValue :
    ({ running with events := [.reset, .machine] } : State).events = .reset :: [.machine] ∧
    ({ running with later := .schedule 2 } : State).Follows 2 ∧ (fun _ => Event.reset : Nat → Event) 2 = .reset := by decide
theorem witness_TheBootSequenceStartsTheRun :
    let program : List HostWord := [3, 1]
    let s : State := { State.reset with events := loadEvents program ++ startEvents 0 1 2 3 ++ [.machine] }
    s.runState ≠ .running ∧ program.length ≤ 64 ∧ (decodeProgram false (program.map cellOf)).1 = .valid ∧
    (decodeProgram false (([0, 7] : List HostWord).map cellOf)).1 ≠ .valid := by decide
theorem witness_EveryStepKeepsTheInvariant : Inv running ∧
    step running = .next { running with B := 5, pc := 1, steps := 1 } := ⟨test_inv_running, rfl⟩
theorem witness_ThePcNeverWraps : Config.hardware.Legal ∧ Inv running ∧
    running.pc.toNat < running.insnCount := ⟨hardware_legal, test_inv_running, by decide⟩
theorem witness_NonNegativeRunsNeverFaultOnAShift : NonNegative running ∧ running.Alone ∧
    running.faultCause = .none ∧ run 1 running = .next { running with B := 5, pc := 1, steps := 1 } :=
  ⟨⟨by decide, by decide, by decide⟩, ⟨rfl, rfl⟩, rfl, rfl⟩

/-! ### Unending interleavings (20_memory.md R66): a host that reads `STEPS` between any two machine steps -/

/-- The machine and the host in turn, without end. -/
def polling (n : Nat) : Event := if n % 2 = 0 then .machine else .read 0x0D

/-- `running` and `looping` in that interleaving, from its third and from its first event on. -/
def polledOnce : State := { running with later := .schedule 2 }
def polledForever : State := { looping with later := .schedule 0 }

theorem test_inv_polledOnce : Inv polledOnce := by
  constructor <;> decide

theorem witness_EveryInterleavingIsARun : polledForever.Follows 0 ∧ polledOnce.Follows 2 ∧
    Config.hardware.Legal ∧ Inv polledOnce ∧
    runUnder polling 2 polledForever =
      .next { polledForever with steps := 1, later := .schedule 2, readData := some 1 } :=
  ⟨⟨rfl, rfl⟩, ⟨rfl, rfl⟩, hardware_legal, test_inv_polledOnce, rfl⟩

theorem witness_NoInterleavingAltersARun : polledOnce.Follows 2 ∧ (∀ m < 2, polling (2 + m) ≠ .reset) ∧
    (∀ m < 2, ∃ u, runUnder polling m polledOnce = .next u ∧ u.runState = .running) ∧
    runUnder polling 2 polledOnce =
      .next { polledOnce with B := 5, pc := 1, steps := 1, later := .schedule 4, readData := some 1 } := by
  refine ⟨⟨rfl, rfl⟩, by decide, ?_, rfl⟩
  intro m hm
  have : m = 0 ∨ m = 1 := by omega
  rcases this with rfl | rfl
  · exact ⟨_, rfl, rfl⟩
  · exact ⟨_, rfl, rfl⟩

theorem witness_AnEndlessRunMayBePolledForever : polledForever.runState = .running ∧
    polledForever.Follows 0 ∧ polledForever.decCode = .valid ∧ polledForever.stepLimit = 0 ∧
    polledForever.A ≠ 0 ∧ (0 : Raw).toNat = 2 * polledForever.pc.toNat ∧
    insnAt polledForever.cells polledForever.pc.toNat = some (.jumpIfANonZero 0) ∧
    (∀ m < 5, polling (0 + m) ≠ .reset) := by decide

theorem test_withFetchWord_moves : (({ State.reset with events := [.reset], later := .schedule 1 } :
    State).withFetchWord 8 0o17).Alone := by decide

/-! ### Other parameters (00_scope.md R6): the smallest legal capacities and unequal widths -/

/-- One instruction, one output entry, 65-bit registers, 66-bit host words. -/
abbrev small : Params :=
  { regW := 65, cellW := 4, progCapRaw := 2, pcW := 2, outCap := 1, outW := 5, hostW := 66, stepW := 70 }

theorem small_legal : small.Legal := by
  constructor <;> decide

/-- A state of it. -/
def smallState : State small :=
  { State.resetAt small with A := bits 65 (-2 ^ 64), B := bits 65 (-1), runState := .running }

/-- The next state, where there is one. -/
def nextOfAt {P : Params} : Host.Outcome (State P) Fault Refusal → Option (State P)
  | .next s => some s
  | .fault _ => none
  | .refused _ => none

theorem test_small_shift : (nextOfAt (execAt (.shiftRightC (.imm 3)) smallState)).map (·.C) =
    some (bits 65 (-2 ^ 61)) := by decide
theorem test_small_emit : (nextOfAt (execAt (.emit (.reg .B)) smallState)).map (·.out) = some [7] := by decide
theorem test_small_emit_full : (nextOfAt (execAt (.emit (.imm 0)) { smallState with out := [1] })).map
    (·.faultCause) = some .outputOverflow := by decide
theorem test_small_program_too_long : (fun t : State small => (t.decCode, t.decIdx, t.progLen))
    (hostWrite 0x00 2 (hostWrite 0x02 0 (hostWrite 0x02 7 (hostWrite 0x02 1 (State.resetAt small))))) =
    (.programTooLong, 2, 2) := by decide

theorem witness_ConfigReportsTheParameters : 48 ≤ small.hostW ∧ small.progCapRaw < 2 ^ 16 ∧
    small.outCap < 2 ^ 16 ∧ small.regW < 2 ^ 8 ∧ small.pcW < 2 ^ 8 := by decide
theorem witness_TheInstructionsAtEveryParameter : small.Legal ∧ 0 ≤ sint (resolve (.imm 0) smallState) ∧
    sint (resolve (.reg .B) smallState) < 0 ∧ (State.resetAt small).A = 0 ∧ smallState.A ≠ 0 ∧
    (0 : Raw).toNat % 2 = 0 ∧ (1 : Raw).toNat % 2 = 1 ∧ smallState.outCount < small.outCap ∧
    ({ smallState with out := [0] } : State small).outCount = small.outCap :=
  ⟨small_legal, by decide, by decide, by decide, by decide, by decide, by decide, by decide, by decide⟩
theorem witness_LoadingAtEveryParameter : small.Legal ∧ (State.resetAt small).runState ≠ .running ∧
    (State.resetAt small).progLen < small.progCapRaw ∧ (7 : HostWord small).toNat ≤ 7 ∧
    7 < (8 : HostWord small).toNat ∧
    ({ State.resetAt small with cells := [⟨0, false⟩, ⟨7, false⟩] } : State small).progLen = small.progCapRaw ∧
    ({ State.resetAt small with loadOvf := true } : State small).loadOvf = true ∧
    (2 : HostWord small).extractLsb' 0 4 = 2 :=
  ⟨small_legal, by decide, by decide, by decide, by decide, by decide, by decide, by decide⟩
/-- The empty program of `small`, decoded, about to halt. -/
def smallHalting : State small := { State.resetAt small with decCode := .valid, runState := .running }

theorem witness_EveryStepKeepsTheInvariant_small : small.Legal ∧ Inv smallHalting ∧
    stepAt smallHalting = .next { smallHalting with runState := .halted } := by
  refine ⟨small_legal, ?_, rfl⟩
  constructor <;> decide

end Sys2Proof.Tests
end

section
/-! The parameters of this hardware (00_scope.md R6). -/

namespace Sys2Proof.Machine

/-- Settles O50: the nine values by evaluation, their constraints from `hardware_legal`, and this
hardware's dispatch and step from `exec_eq_execAt` and `step_eq_stepAt`. -/
theorem thisHardwareIsTheModelAtItsParameters : Obligations.ThisHardwareIsTheModelAtItsParameters := by
  obtain ⟨reg, progEven, progLow, progHigh, outLow, outHigh, pcHoldsEnd, pcHoldsTarget, -, -⟩ := hardware_legal
  refine ⟨?values, ?constraints, exec_eq_execAt, step_eq_stepAt⟩
  case values => exact ⟨rfl, rfl, rfl, rfl, rfl, rfl, rfl, rfl, rfl⟩
  case constraints => exact ⟨reg, progEven, progLow, progHigh, outLow, outHigh, pcHoldsEnd, pcHoldsTarget⟩

end Sys2Proof.Machine
end

section
/-! SUPPORT. What a host access reads and writes (10_state.md, section 8), bit field by bit field for the
two registers that pack several values, and what reset leaves. -/

namespace Sys2Proof.Machine

variable {P : Params}

/-! `STATUS` (10_state.md R42) -/

@[simp] theorem hostRead_status (s : State P) : hostRead 0x01 s = statusWord s := rfl

theorem statusWord_extract_state (h : 3 ≤ P.hostW) (s : State P) :
    (statusWord s).extractLsb' 0 3 = s.runState.code := by
  rw [statusWord, BitVec.extractLsb'_setWidth_of_le h, BitVec.extractLsb'_append_eq_right]

theorem statusWord_getLsbD_rejected (h : 3 < P.hostW) (s : State P) :
    (statusWord s).getLsbD 3 = s.cmdRejected := by
  simp only [statusWord, BitVec.getLsbD_setWidth, BitVec.getLsbD_append, h]
  simp

theorem statusWord_getLsbD_valid (h : 4 < P.hostW) (s : State P) :
    (statusWord s).getLsbD 4 = decide (s.decCode = .valid) := by
  simp only [statusWord, BitVec.getLsbD_setWidth, BitVec.getLsbD_append, h]
  simp

theorem statusWord_getLsbD_overflow (h : 5 < P.hostW) (s : State P) :
    (statusWord s).getLsbD 5 = s.loadOvf := by
  simp only [statusWord, BitVec.getLsbD_setWidth, BitVec.getLsbD_append, h]
  simp

theorem statusWord_getLsbD_high (s : State P) {i : Nat} (hi : 6 ≤ i) : (statusWord s).getLsbD i = false := by
  rw [statusWord, BitVec.getLsbD_setWidth, BitVec.getLsbD_of_ge _ i hi, Bool.and_false]

/-! `CONFIG` (10_state.md R53) -/

@[simp] theorem hostRead_config (s : State P) : hostRead 0x11 s = configWord := rfl

section
variable (h : 48 ≤ P.hostW)
include h

theorem configWord_extract_progCapRaw :
    (configWord : HostWord P).extractLsb' 0 16 = BitVec.ofNat 16 P.progCapRaw := by
  rw [configWord, BitVec.extractLsb'_setWidth_of_le (by omega), BitVec.extractLsb'_append_eq_right]

theorem configWord_extract_outCap :
    (configWord : HostWord P).extractLsb' 16 16 = BitVec.ofNat 16 P.outCap := by
  rw [configWord, BitVec.extractLsb'_setWidth_of_le (by omega),
    BitVec.extractLsb'_append_eq_of_le (by omega), BitVec.extractLsb'_append_eq_right]

theorem configWord_extract_regW :
    (configWord : HostWord P).extractLsb' 32 8 = BitVec.ofNat 8 P.regW := by
  rw [configWord, BitVec.extractLsb'_setWidth_of_le (by omega),
    BitVec.extractLsb'_append_eq_of_le (by omega), BitVec.extractLsb'_append_eq_of_le (by omega),
    BitVec.extractLsb'_append_eq_right]

theorem configWord_extract_pcW :
    (configWord : HostWord P).extractLsb' 40 8 = BitVec.ofNat 8 P.pcW := by
  rw [configWord, BitVec.extractLsb'_setWidth_of_le (by omega),
    BitVec.extractLsb'_append_eq_of_le (by omega), BitVec.extractLsb'_append_eq_of_le (by omega),
    BitVec.extractLsb'_append_eq_left]

end

theorem configWord_getLsbD_high {i : Nat} (hi : 48 ≤ i) : (configWord : HostWord P).getLsbD i = false := by
  rw [configWord, BitVec.getLsbD_setWidth, BitVec.getLsbD_of_ge _ i hi, Bool.and_false]

/-- The value the spec gives for this hardware (10_state.md R53). -/
theorem configWord_hardware : (configWord : HostWord) = 0x0000064001000040 := by decide

/-! Unmapped and read-only addresses (10_state.md R54) -/

theorem hostRead_unmapped {addr : Nat} (h : 0x11 < addr) (s : State P) : hostRead addr s = 0 := by
  obtain ⟨n, rfl⟩ : ∃ n, addr = n + 0x12 := Nat.exists_eq_add_of_le' h
  rfl

theorem hostWrite_running (addr : Nat) (w : HostWord P) (s : State P) (h : s.runState = .running) :
    hostWrite addr w s = reject s := if_pos h

/-- The list is that of the writable addresses of 10_state.md R40. -/
theorem hostWrite_of_not_writable {addr : Nat} (h : addr ∉ [0x00, 0x02, 0x06, 0x07, 0x08, 0x0B, 0x0E])
    (w : HostWord P) (s : State P) (hr : s.runState ≠ .running) : hostWrite addr w s = s := by
  unfold hostWrite
  rw [if_neg hr]
  split
  case h_8 => rfl
  all_goals exact absurd (by decide) h

/-! Reset (70_reset_and_hazards.md R190) -/

/-- When reset is the next event, listed or of the unending interleaving, the step is reset, in a state
that differs in its schedule alone. -/
theorem stepUnder_reset (f : Nat → Event P) (s : State P)
    (h : (∃ es, s.events = .reset :: es) ∨ (∃ n, s.Follows n ∧ f n = .reset)) :
    ∃ es l, stepUnder f s = .next (resetEvent { s with events := es, later := l }) := by
  obtain ⟨es, he⟩ | ⟨n, ⟨he, hl⟩, hf⟩ := h
  · exact ⟨es, s.later, stepUnder_cons f s .reset es he⟩
  · refine ⟨s.events, .schedule (n + 1), ?_⟩
    rw [stepUnder_schedule f s n he hl, hf]
    rfl

end Sys2Proof.Machine
end

section
/-! The host's view of the state (10_state.md, section 8) and its values after reset (R55). -/

namespace Sys2Proof.Machine

/-- Settles O15: each field of `STATUS` from the lemma about its bits. -/
theorem statusWordLayout : Obligations.StatusWordLayout := by
  intro s
  have state : (hostRead 0x01 s).extractLsb' 0 3 = s.runState.code :=
    statusWord_extract_state (by decide) s
  refine ⟨?_, ?_, ?_, ?_, ?_, statusWord_getLsbD_rejected (by decide) s, ?valid,
    statusWord_getLsbD_overflow (by decide) s, fun _ => statusWord_getLsbD_high s⟩
  case valid => rw [hostRead_status, statusWord_getLsbD_valid (by decide), decide_eq_true_eq]
  all_goals
    intro h
    rw [state, h]
    rfl

/-- Settles O19: unmapped reads by `hostRead_unmapped`, and writes that no register takes by the run
state. -/
theorem unmappedAndReadOnlyAccesses : Obligations.UnmappedAndReadOnlyAccesses :=
  fun s addr w => ⟨fun h => hostRead_unmapped h s,
    fun h => ⟨hostWrite_of_not_writable h w s, hostWrite_running addr w s⟩⟩

/-- Settles O43: the step is reset (`stepUnder_reset`), which takes every value from `State.resetAt`. -/
theorem resetSetsEveryValue : Obligations.ResetSetsEveryValue := by
  intro f s h
  obtain ⟨es, l, hstep⟩ := stepUnder_reset f s h
  exact ⟨_, hstep, rfl, rfl, rfl, rfl, rfl, rfl, rfl, rfl, rfl, rfl, rfl, rfl, rfl, rfl, rfl, rfl⟩

/-- Settles O51: each field of `CONFIG` from the lemma about its bits, whose value fits. -/
theorem configReportsTheParameters : Obligations.ConfigReportsTheParameters := by
  refine ⟨?fields, fun _ => configWord_hardware⟩
  intro P hHost hProg hOut hReg hPc s
  rw [hostRead_config, configWord_extract_progCapRaw hHost, configWord_extract_outCap hHost,
    configWord_extract_regW hHost, configWord_extract_pcW hHost]
  simp only [BitVec.toNat_ofNat]
  exact ⟨Nat.mod_eq_of_lt hProg, Nat.mod_eq_of_lt hOut, Nat.mod_eq_of_lt hReg, Nat.mod_eq_of_lt hPc,
    fun _ => configWord_getLsbD_high⟩

end Sys2Proof.Machine
end

section
/-! SUPPORT. The pair scan of DECODE (30_encoding.md R93, R94): it runs over the pairs that decode and
answers at the first that does not. -/

namespace Sys2Proof

variable {P : Params}

/-! One pair of cells (R91, R94) -/

theorem decodePair_of_bad_opcode {o : Cell P} (h : o.bad = true) (r : Cell P) :
    decodePair o r = .error .invalidOpcode := if_pos h

theorem decodePair_of_bad_operand {o r : Cell P} (ho : o.bad = false) (hr : r.bad = true) :
    decodePair o r = .error .invalidOperand := by
  simp [decodePair, ho, hr]

/-- Two cells that hold raw values are the fields of an instruction word. -/
theorem decodePair_of_good {o r : Cell P} (ho : o.bad = false) (hr : r.bad = false) :
    decodePair o r = decodeFields o.raw r.raw := by
  simp [decodePair, ho, hr]

/-- A pair that is accepted in the words of R93 decodes to an instruction. -/
theorem decodePair_of_accepted {o r : Cell} (h : Machine.pairAccepted o r) : ∃ i, decodePair o r = .ok i := by
  obtain ⟨ho, hr, legal⟩ := h
  rw [decodePair_of_good ho hr, raw_hardware, raw_hardware]
  cases hd : decodeFields o.value r.value with
  | ok i => exact ⟨i, rfl⟩
  | error e => exact absurd ((decodeFields_error _ _ e).mp hd).1 legal

/-- A bad operand cell and an illegal raw operand are the same error. -/
theorem decodePair_of_bad_or_illegal_operand {o r : Cell} (ho : o.bad = false)
    (h : r.bad = true ∨ (o.value ∈ [0, 2, 5, 6, 7] ∧ r.value = 7)) :
    decodePair o r = .error .invalidOperand := by
  cases hr : r.bad with
  | true => exact decodePair_of_bad_operand ho hr
  | false =>
    have illegal := h.resolve_left (by simp [hr])
    rw [decodePair_of_good ho hr, raw_hardware, raw_hardware]
    exact (decodeFields_error _ _ _).mpr ⟨illegal, rfl⟩

/-! The scan at its first pair -/

theorem scanPairs_of_ok {o r : Cell P} {i : Instr} (h : decodePair o r = .ok i) (idx : Nat)
    (rest : List (Cell P)) : scanPairs idx (o :: r :: rest) = scanPairs (idx + 2) rest := by
  rw [scanPairs, h]

theorem scanPairs_of_invalidOpcode {o r : Cell P} (h : decodePair o r = .error .invalidOpcode) (idx : Nat)
    (rest : List (Cell P)) :
    scanPairs idx (o :: r :: rest) = (.invalidOpcode, BitVec.ofNat 16 idx) := by
  rw [scanPairs, h]

theorem scanPairs_of_invalidOperand {o r : Cell P} (h : decodePair o r = .error .invalidOperand) (idx : Nat)
    (rest : List (Cell P)) :
    scanPairs idx (o :: r :: rest) = (.invalidOperand, BitVec.ofNat 16 (idx + 1)) := by
  rw [scanPairs, h]

/-! The scan past the pairs that decode -/

/-- The scan goes on after the first `k` pairs when each of them decodes. -/
theorem scanPairs_skip (k idx : Nat) (cells : List (Cell P)) (hk : 2 * k ≤ cells.length)
    (decodes : ∀ j < k, ∀ o r, cellPair cells j = some (o, r) → ∃ i, decodePair o r = .ok i) :
    scanPairs idx cells = scanPairs (idx + 2 * k) (cells.drop (2 * k)) := by
  induction k generalizing idx cells with
  | zero => rfl
  | succ k ih =>
    match cells with
    | o :: r :: rest =>
      obtain ⟨i, hi⟩ := decodes 0 (by omega) o r rfl
      have decodesRest : ∀ j < k, ∀ o' r', cellPair rest j = some (o', r') →
          ∃ i, decodePair o' r' = .ok i :=
        fun j hj o' r' h => decodes (j + 1) (by omega) o' r' (by rwa [cellPair_cons_succ])
      calc scanPairs idx (o :: r :: rest)
          = scanPairs (idx + 2) rest := scanPairs_of_ok hi idx rest
        _ = scanPairs (idx + 2 + 2 * k) (rest.drop (2 * k)) :=
            ih (idx + 2) rest (by simp at hk; omega) decodesRest
        _ = scanPairs (idx + 2 * (k + 1)) ((o :: r :: rest).drop (2 * (k + 1))) := by
            rw [show idx + 2 + 2 * k = idx + 2 * (k + 1) by omega]; rfl
    | [_] => simp at hk; omega
    | [] => simp at hk

/-- The pair `k`, where there is one, stands at cell `2k`. -/
theorem drop_of_cellPair {cells : List (Cell P)} {k : Nat} {o r : Cell P}
    (h : cellPair cells k = some (o, r)) :
    2 * k + 1 < cells.length ∧ ∃ rest, cells.drop (2 * k) = o :: r :: rest := by
  unfold cellPair at h
  split at h
  case h_1 ho hr =>
    obtain ⟨hlo, rfl⟩ := List.getElem?_eq_some_iff.mp ho
    obtain ⟨hlr, rfl⟩ := List.getElem?_eq_some_iff.mp hr
    cases h
    exact ⟨hlr, _, by rw [List.drop_eq_getElem_cons hlo, List.drop_eq_getElem_cons hlr]⟩
  case h_2 => cases h

/-- The scan comes to the pair `k` when every earlier pair decodes. -/
theorem scanPairs_at_pair {cells : List (Cell P)} {k : Nat} {o r : Cell P}
    (h : cellPair cells k = some (o, r))
    (decodes : ∀ j < k, ∀ o' r', cellPair cells j = some (o', r') → ∃ i, decodePair o' r' = .ok i) :
    ∃ rest, scanPairs 0 cells = scanPairs (2 * k) (o :: r :: rest) := by
  obtain ⟨hk, rest, hrest⟩ := drop_of_cellPair h
  exact ⟨rest, by rw [scanPairs_skip k 0 cells (by omega) decodes, hrest, Nat.zero_add]⟩

/-- The scan answers VALID when every pair decodes and no cell is left over. -/
theorem scanPairs_of_all_decode {cells : List (Cell P)} (even : cells.length % 2 = 0)
    (decodes : ∀ k o r, cellPair cells k = some (o, r) → ∃ i, decodePair o r = .ok i) :
    scanPairs 0 cells = (.valid, 0) := by
  have hlen : 2 * (cells.length / 2) = cells.length := by omega
  rw [scanPairs_skip (cells.length / 2) 0 cells hlen.le (fun j _ => decodes j), hlen, List.drop_length]
  rfl

/-! The three stages of DECODE (R94) -/

theorem decodeProgram_overflow (cells : List (Cell P)) :
    decodeProgram true cells = (.programTooLong, BitVec.ofNat 16 P.progCapRaw) := rfl

theorem decodeProgram_odd {cells : List (Cell P)} (h : cells.length % 2 = 1) :
    decodeProgram false cells = (.malformedProgram, BitVec.ofNat 16 cells.length) := if_pos h

theorem decodeProgram_even {cells : List (Cell P)} (h : cells.length % 2 = 0) :
    decodeProgram false cells = scanPairs 0 cells :=
  if_neg (show ¬cells.length % 2 = 1 by omega)

end Sys2Proof
end

section
/-! SUPPORT. The host writes that load the program store, while the machine is not RUNNING (10_state.md
R41, R43; 30_encoding.md R93, R99, R100). -/

namespace Sys2Proof.Machine

variable {P : Params}

/-! `CTRL` (10_state.md R41) -/

theorem hostWrite_ctrl {s : State P} (hr : s.runState ≠ .running) (w : HostWord P) :
    hostWrite 0x00 w s = ctrlWrite w s := if_neg hr

theorem ctrlWrite_progClear {w : HostWord P} (hw : w.extractLsb' 0 4 = 1) (s : State P) :
    ctrlWrite w s = progClear (accept s) := by
  rw [ctrlWrite, hw]; rfl

theorem ctrlWrite_decode {w : HostWord P} (hw : w.extractLsb' 0 4 = 2) (s : State P) :
    ctrlWrite w s = decodeCommand (accept s) := by
  rw [ctrlWrite, hw]; rfl

/-- The whole next state of DECODE, given what `decodeProgram` says of the store. -/
theorem hostWrite_decode {s : State P} {w : HostWord P} (hr : s.runState ≠ .running)
    (hw : w.extractLsb' 0 4 = 2) {code : DecCode} {idx : Index16}
    (h : decodeProgram s.loadOvf s.cells = (code, idx)) :
    hostWrite 0x00 w s = { s with cmdRejected := false, decCode := code, decIdx := idx } := by
  obtain ⟨rfl, rfl⟩ := Prod.mk.inj h
  rw [hostWrite_ctrl hr, ctrlWrite_decode hw]
  rfl

/-! `PROG_DATA` (10_state.md R43) -/

theorem hostWrite_progData {s : State P} (hr : s.runState ≠ .running) (w : HostWord P) :
    hostWrite 0x02 w s = progData w s := if_neg hr

theorem progData_of_room {s : State P} (h : s.progLen < P.progCapRaw) (w : HostWord P) :
    progData w s = { s with cells := s.cells ++ [cellOf w], decCode := .notDecoded, decIdx := 0 } := by
  rw [progData, if_pos h]; rfl

theorem progData_of_full {s : State P} (h : P.progCapRaw ≤ s.progLen) (w : HostWord P) :
    progData w s = { s with loadOvf := true, decCode := .notDecoded, decIdx := 0 } := by
  rw [progData, if_neg (by omega)]; rfl

theorem cellOf_of_le {w : HostWord P} (h : w.toNat ≤ 7) : cellOf w = ⟨w.setWidth P.cellW, false⟩ := if_pos h

theorem cellOf_of_gt {w : HostWord P} (h : 7 < w.toNat) : cellOf w = ⟨0, true⟩ := if_neg (by omega)

end Sys2Proof.Machine
end

section
/-! The combo operands, and the program store as the host loads and decodes it (30_encoding.md R89, R93
to R100). -/

namespace Sys2Proof.Machine

/-- Settles O6: the three stages of `decodeProgram`, and the scan taken to the failing pair. -/
theorem decodeReportsTheFirstError : Obligations.DecodeReportsTheFirstError := by
  intro s w hr hw
  refine ⟨?overflow, ?odd, ?valid, ?failing⟩
  case overflow =>
    intro ovf
    exact hostWrite_decode hr hw (by rw [ovf, decodeProgram_overflow]; rfl)
  case odd =>
    intro ovf odd
    exact hostWrite_decode hr hw (by rw [ovf, decodeProgram_odd odd])
  case valid =>
    intro ovf even accepted
    have decodes := fun k o r h => decodePair_of_accepted (accepted k o r h)
    exact hostWrite_decode hr hw (by rw [ovf, decodeProgram_even even, scanPairs_of_all_decode even decodes])
  case failing =>
    intro ovf even k o r hpair accepted
    have decodes := fun j hj o' r' h => decodePair_of_accepted (accepted j hj o' r' h)
    obtain ⟨rest, scan⟩ := scanPairs_at_pair hpair decodes
    have report : decodeProgram s.loadOvf s.cells = scanPairs (2 * k) (o :: r :: rest) := by
      rw [ovf, decodeProgram_even even, scan]
    refine ⟨fun bad => hostWrite_decode hr hw (report.trans ?opcode),
      fun good bad => hostWrite_decode hr hw (report.trans ?operand)⟩
    case opcode => exact scanPairs_of_invalidOpcode (decodePair_of_bad_opcode bad r) _ rest
    case operand => exact scanPairs_of_invalidOperand (decodePair_of_bad_or_illegal_operand good bad) _ rest

/-- Settles O3: 0..3 and the registers by `comboOperand_rawBits`, the raw values of well-formed operands. -/
theorem comboOperandsResolve : Obligations.ComboOperandsResolve :=
  ⟨fun raw h => ⟨.imm raw, comboOperand_rawBits (.imm raw) (decide_eq_true h), resolve_imm raw⟩,
    ⟨.reg .A, comboOperand_rawBits (.reg .A) rfl, resolve_reg .A⟩,
    ⟨.reg .B, comboOperand_rawBits (.reg .B) rfl, resolve_reg .B⟩,
    ⟨.reg .C, comboOperand_rawBits (.reg .C) rfl, resolve_reg .C⟩, rfl⟩

/-- Settles O7: DECODE keeps `LOAD_OVF`, the cells and STATE, on which alone its answer depends. -/
theorem decodeIsPureAndRepeatable : Obligations.DecodeIsPureAndRepeatable := by
  have once : ∀ s : State, s.runState ≠ .running → hostWrite 0x00 2 s =
      { s with cmdRejected := false, decCode := (decodeProgram s.loadOvf s.cells).1,
               decIdx := (decodeProgram s.loadOvf s.cells).2 } :=
    fun s hr => hostWrite_decode hr (by decide) rfl
  refine ⟨fun s hr => ?repeatable, fun s t hs ht ovf cells => ?pure⟩
  case repeatable =>
    rw [once s hr]
    exact once _ hr
  case pure =>
    rw [once s hs, once t ht, ovf, cells]
    exact ⟨rfl, rfl⟩

/-- Settles O8: PROG_CLEAR after the acceptance of the command. -/
theorem progClearEmptiesTheStore : Obligations.ProgClearEmptiesTheStore := by
  intro s w hr hw
  rw [hostWrite_ctrl hr, ctrlWrite_progClear hw]
  rfl

/-- Settles O9: the write by the room left, the cell by the value. -/
theorem progDataAppendsOneCell : Obligations.ProgDataAppendsOneCell := by
  intro s w hr
  rw [hostWrite_progData hr]
  refine ⟨fun room small => ?raw, fun room large => ?bad, fun full => progData_of_full full.ge w, rfl⟩
  case raw =>
    rw [progData_of_room room, cellOf_of_le small, BitVec.setWidth_eq_extractLsb' (by decide)]
  case bad => rw [progData_of_room room, cellOf_of_gt large]

end Sys2Proof.Machine
end

section
/-! SUPPORT. START (40_execution_cycle.md R110, R111), and the machine's step test by test (R112). -/

namespace Sys2Proof.Machine

variable {P : Params}

/-! START -/

theorem ctrlWrite_start {w : HostWord P} (hw : w.extractLsb' 0 4 = 3) (s : State P) :
    ctrlWrite w s = startCommand s := by
  rw [ctrlWrite, hw]; rfl

theorem startCommand_of_valid {s : State P} (h : s.decCode = .valid) :
    startCommand s = startRun (accept s) := if_pos h

theorem startCommand_of_not_valid {s : State P} (h : s.decCode ≠ .valid) :
    startCommand s = reject s := if_neg h

/-! The machine's step -/

theorem haltTest_iff (s : State P) : haltTest s = true ↔ s.insnCount ≤ s.pc.toNat := decide_eq_true_iff

theorem limitTest_iff (s : State P) : limitTest s = true ↔ s.stepLimit ≠ 0 ∧ s.steps = s.stepLimit := by
  simp only [limitTest, Bool.and_eq_true, decide_eq_true_eq]

section
variable {s : State P} (running : s.runState = .running)
include running

theorem machineStep_of_halt (halt : s.insnCount ≤ s.pc.toNat) : machineStep s = .next (haltRun s) := by
  rw [machineStep, if_pos running, if_pos ((haltTest_iff s).mpr halt)]

theorem machineStep_of_limit (inside : s.pc.toNat < s.insnCount) (limited : s.stepLimit ≠ 0)
    (reached : s.steps = s.stepLimit) : machineStep s = .next (limitRun s) := by
  have noHalt : ¬haltTest s = true := mt (haltTest_iff s).mp inside.not_ge
  rw [machineStep, if_pos running, if_neg noHalt, if_pos ((limitTest_iff s).mpr ⟨limited, reached⟩)]

theorem machineStep_of_insn (inside : s.pc.toNat < s.insnCount)
    (below : s.stepLimit = 0 ∨ s.steps ≠ s.stepLimit) (valid : s.decCode = .valid) {i : Instr}
    (insn : insnAt s.cells s.pc.toNat = some i) : machineStep s = execAt i s := by
  have noHalt : ¬haltTest s = true := mt (haltTest_iff s).mp inside.not_ge
  have noLimit : ¬limitTest s = true := fun h => by
    obtain ⟨limited, reached⟩ := (limitTest_iff s).mp h
    exact below.elim limited (· reached)
  have fetched : fetch s = .ok i := (fetch_eq_ok s i).mpr ⟨valid, insn⟩
  rw [machineStep, if_pos running, if_neg noHalt, if_neg noLimit, instructionStep, fetched]

end

end Sys2Proof.Machine
end

section
/-! The execution cycle (40_execution_cycle.md R110 to R113). -/

namespace Sys2Proof.Machine

/-- Settles O32: START by the decode status; accepted, it is `startRun` after the acceptance of the
command. -/
theorem startBeginsARunOrIsRefused : Obligations.StartBeginsARunOrIsRefused := by
  intro s w hr hw
  rw [hostWrite_ctrl hr, ctrlWrite_start hw]
  refine ⟨fun valid => ?accepted, fun invalid => startCommand_of_not_valid invalid⟩
  case accepted =>
    rw [startCommand_of_valid valid]
    rfl

/-- Settles O33: the step is the machine's, which the first of its tests that succeeds decides. -/
theorem haltThenLimitThenInstruction : Obligations.HaltThenLimitThenInstruction := by
  rintro s running ⟨noEvents, noLater⟩
  rw [step_machine s noEvents noLater]
  refine ⟨machineStep_of_halt running, machineStep_of_limit running, ?insn⟩
  case insn =>
    intro inside below valid i insn
    rw [machineStep_of_insn running inside below valid insn, exec_eq_execAt]

end Sys2Proof.Machine
end

section
/-! SUPPORT. The shift family (41_shift.md R130 to R133): how its words decode, and what a shift answers
by the sign of its amount. -/

namespace Sys2Proof

theorem withCombo_of_ok {raw : Raw} {v : Operand} (h : comboOperand raw = .ok v) (mk : Operand → Instr) :
    withCombo mk raw = .ok (mk v) := by
  rw [withCombo, h]

theorem decodeWord_shiftRightA (raw : Raw) :
    decodeWord (0b000#3 ++ raw) = withCombo .shiftRightA raw := decodeWord_append 0b000#3 raw

namespace Machine

variable {P : Params} (dst : Reg) {v : Operand} {s : State P}

theorem shiftInto_of_nonneg (h : 0 ≤ sint (resolve v s)) :
    shiftInto dst v s = .next (complete (npc s)
      (writeReg dst (bits P.regW (Int.tdiv (sint s.A) (2 ^ (sint (resolve v s)).toNat))) s)) := by
  rw [shiftInto, shr_of_nonneg _ _ h]

theorem shiftInto_of_neg (h : sint (resolve v s) < 0) :
    shiftInto dst v s = .next (raiseFault .negativeShift s) := by
  rw [shiftInto, shr_of_neg _ _ h]

theorem exec_shiftRightA (v : Operand) (s : State) : exec (.shiftRightA v) s = shiftInto .A v s := rfl

end Machine
end Sys2Proof
end

section
/-! The shift family (41_shift.md R130 to R133). -/

namespace Sys2Proof.Machine

/-- Settles O20: the words by their combo operand, of which raw 7 is the illegal one; the next state by
the sign of the amount, the quotient exact by `shr_of_nonneg`. -/
theorem shiftRightAMeaning : Obligations.ShiftRightAMeaning := by
  refine ⟨fun raw v combo => ?decodes, ?illegal, fun v s => ⟨fun nonneg => ?quotient, fun neg => ?fault⟩⟩
  case decodes => rw [decodeWord_shiftRightA, withCombo_of_ok combo]
  case illegal => rw [decodeWord_append, decodeFields_error]; decide
  case quotient =>
    rw [exec_shiftRightA, shiftInto_of_nonneg .A nonneg]
    rfl
  case fault =>
    rw [exec_shiftRightA, shiftInto_of_neg .A neg]
    rfl

end Sys2Proof.Machine
end

section
/-! SUPPORT. TruncateIntoB (42_bitwise.md R141): how its words decode, and that the three bits it cuts
out and extends again are a mask of the resolved operand. -/

namespace Sys2Proof

theorem decodeWord_truncateIntoB (raw : Raw) :
    decodeWord (0b010#3 ++ raw) = withCombo .truncateIntoB raw := decodeWord_append 0b010#3 raw

namespace Machine

variable {P : Params}

theorem execTruncateIntoB_eq_mask (hw : 3 ≤ P.regW) (v : Operand) (s : State P) :
    execTruncateIntoB v s = writeB (resolve v s &&& 0b111) s := by
  rw [execTruncateIntoB, zext_lowThree hw]

theorem exec_truncateIntoB (v : Operand) (s : State) :
    exec (.truncateIntoB v) s = execTruncateIntoB v s := rfl

end Machine
end Sys2Proof
end

section
/-! The bitwise family (42_bitwise.md R140 to R142). -/

namespace Sys2Proof.Machine

/-- Settles O24: the words by their combo operand, of which raw 7 is the illegal one; the next state is
what `writeB` completes on the masked operand. -/
theorem truncateIntoBMeaning : Obligations.TruncateIntoBMeaning := by
  refine ⟨fun raw v combo => ?decodes, ?illegal, fun v s => ?masked⟩
  case decodes => rw [decodeWord_truncateIntoB, withCombo_of_ok combo]
  case illegal => rw [decodeWord_append, decodeFields_error]; decide
  case masked =>
    rw [exec_truncateIntoB, execTruncateIntoB_eq_mask (by decide)]
    rfl

end Sys2Proof.Machine
end

section
/-! SUPPORT. JumpIfANonZero (43_control.md R150 to R152): how its words decode, and what a jump answers
by A and, where it is taken, by the parity of its literal. -/

namespace Sys2Proof

theorem decodeWord_jumpIfANonZero (raw : Raw) :
    decodeWord (0b011#3 ++ raw) = .ok (.jumpIfANonZero raw) := decodeWord_append 0b011#3 raw

namespace Machine

variable {P : Params}

theorem aNonZero_iff (s : State P) : aNonZero s = true ↔ s.A ≠ 0 := decide_eq_true_iff

theorem rawOdd_iff (raw : Raw) : rawOdd raw = true ↔ raw.toNat % 2 = 1 := decide_eq_true_iff

theorem exec_jumpIfANonZero (raw : Raw) (s : State) :
    exec (.jumpIfANonZero raw) s = execJumpIfANonZero raw s := rfl

section
variable {raw : Raw} {s : State P}

theorem execJump_of_zero (zero : s.A = 0) :
    execJumpIfANonZero raw s = .next (complete (npc s) s) := by
  have notTaken : ¬aNonZero s = true := fun h => (aNonZero_iff s).mp h zero
  rw [execJumpIfANonZero, if_neg notTaken]

theorem execJump_of_even (nonzero : s.A ≠ 0) (even : raw.toNat % 2 = 0) :
    execJumpIfANonZero raw s = .next (complete (jumpTarget raw) s) := by
  have notOdd : ¬rawOdd raw = true := by rw [rawOdd_iff]; omega
  rw [execJumpIfANonZero, if_pos ((aNonZero_iff s).mpr nonzero), if_neg notOdd]

theorem execJump_of_odd (nonzero : s.A ≠ 0) (odd : raw.toNat % 2 = 1) :
    execJumpIfANonZero raw s = .next (raiseFault .invalidJumpTarget s) := by
  rw [execJumpIfANonZero, if_pos ((aNonZero_iff s).mpr nonzero), if_pos ((rawOdd_iff raw).mpr odd)]

end

end Machine
end Sys2Proof
end

section
/-! Control transfer (43_control.md R150 to R152). -/

namespace Sys2Proof.Machine

/-- Settles O27: every literal decodes; the next state by A, and the parity of the literal is asked for
only where A is not zero. -/
theorem jumpIfANonZeroMeaning : Obligations.JumpIfANonZeroMeaning := by
  intro raw s
  rw [exec_jumpIfANonZero]
  exact ⟨decodeWord_jumpIfANonZero raw, execJump_of_zero, execJump_of_even, execJump_of_odd⟩

end Sys2Proof.Machine
end

section
/-! SUPPORT. Emit (44_output.md R160, R161): how its words decode, what an Emit answers by whether the
buffer is full, and that the entry it appends is a bit field of the resolved operand. -/

namespace Sys2Proof

theorem decodeWord_emit (raw : Raw) :
    decodeWord (0b101#3 ++ raw) = withCombo .emit raw := decodeWord_append 0b101#3 raw

namespace Machine

variable {P : Params}

theorem outFull_iff (s : State P) : outFull s = true ↔ P.outCap ≤ s.outCount := decide_eq_true_iff

theorem exec_emit (v : Operand) (s : State) : exec (.emit v) s = execEmit v s := rfl

section
variable {v : Operand} {s : State P}

theorem execEmit_of_room (room : s.outCount < P.outCap) :
    execEmit v s = .next (complete (npc s) (outAppend (zext P.outW (lowThree (resolve v s))) s)) := by
  have notFull : ¬outFull s = true := by rw [outFull_iff]; omega
  rw [execEmit, if_neg notFull]

theorem execEmit_of_full (full : P.outCap ≤ s.outCount) :
    execEmit v s = .next (raiseFault .outputOverflow s) := by
  rw [execEmit, if_pos ((outFull_iff s).mpr full)]

end

/-- An output entry of this hardware is as wide as the three bits appended (44_output.md R160). -/
theorem zext_outW_lowThree (v : Word) :
    (zext Config.hardware.outW (lowThree v) : OutValue) = v.extractLsb' 0 3 := by
  rw [lowThree_eq_extract (by decide)]
  exact BitVec.setWidth_eq _

end Machine
end Sys2Proof
end

section
/-! Output (44_output.md R160, R161). -/

namespace Sys2Proof.Machine

/-- Settles O28: the words by their combo operand, of which raw 7 is the illegal one; the next state by
whether the buffer has room, the entry appended by `zext_outW_lowThree`. -/
theorem emitMeaning : Obligations.EmitMeaning := by
  refine ⟨fun raw v combo => ?decodes, ?illegal, fun v s => ⟨fun room => ?appends, fun full => ?overflows⟩⟩
  case decodes => rw [decodeWord_emit, withCombo_of_ok combo]
  case illegal => rw [decodeWord_append, decodeFields_error]; decide
  case appends =>
    rw [exec_emit, execEmit_of_room room, zext_outW_lowThree]
    rfl
  case overflows =>
    rw [exec_emit, execEmit_of_full full.ge]
    rfl

end Sys2Proof.Machine
end

section
/-! SUPPORT. The cells of a program of well-formed instructions (30_encoding.md R81 to R84): DECODE and the
fetch read the program back from them. -/

namespace Sys2Proof

variable {P : Params}

theorem decodeWord_encode {i : Instr} (h : i.WellFormed) : decodeWord (encode i) = .ok i :=
  (decodeWord_append _ _).trans (decodeFields_bits i h)

theorem wellFormed_and_encode_of_decodeWord {w : InsnWord} {i : Instr} (h : decodeWord w = .ok i) :
    i.WellFormed ∧ encode i = w := by
  obtain ⟨wellFormed, op, raw⟩ := decodeFields_ok _ _ i h
  exact ⟨wellFormed, by rw [encode, op, raw, append_fields]⟩

/-! One pair of cells -/

theorem decodePair_encoded (hw : 3 ≤ P.cellW) {i : Instr} (h : i.WellFormed) :
    decodePair (Cell.ofRaw i.opBits : Cell P) (Cell.ofRaw i.rawBits) = .ok i := by
  rw [decodePair_of_good (ofRaw_bad _) (ofRaw_bad _), raw_ofRaw hw, raw_ofRaw hw, decodeFields_bits i h]

/-- A pair decodes only when both cells are good and hold the fields of the instruction. -/
theorem decodePair_ok {o r : Cell P} {i : Instr} (h : decodePair o r = .ok i) :
    o.bad = false ∧ r.bad = false ∧ decodeFields o.raw r.raw = .ok i := by
  cases ho : o.bad with
  | true => rw [decodePair_of_bad_opcode ho] at h; cases h
  | false =>
    cases hr : r.bad with
    | true => rw [decodePair_of_bad_operand ho hr] at h; cases h
    | false => exact ⟨rfl, rfl, by rwa [decodePair_of_good ho hr] at h⟩

/-- On this hardware a pair that decodes is the cells of the instruction, which is well formed. -/
theorem encodeCells_of_decodePair {o r : Cell} {i : Instr} (h : decodePair o r = .ok i) :
    i.WellFormed ∧ encodeCells i = [o, r] := by
  obtain ⟨ho, hr, fields⟩ := decodePair_ok h
  rw [raw_hardware, raw_hardware] at fields
  obtain ⟨wellFormed, op, raw⟩ := decodeFields_ok _ _ i fields
  obtain ⟨ov, ob⟩ := o
  obtain ⟨rv, rb⟩ := r
  subst ho hr
  exact ⟨wellFormed, by rw [encodeCells, ofRaw_hardware, ofRaw_hardware, op, raw]⟩

/-! The whole store -/

theorem insnAt_of_cellPair {cells : List (Cell P)} {k : Nat} {o r : Cell P} (h : cellPair cells k = some (o, r)) :
    insnAt cells k = (decodePair o r).toOption := by
  rw [insnAt, h]

/-- Where there is an instruction, its index is below `N`. -/
theorem lt_of_insnAt {cells : List (Cell P)} {k : Nat} {i : Instr} (h : insnAt cells k = some i) :
    k < cells.length / 2 := by
  cases hp : cellPair cells k with
  | none => rw [insnAt, hp] at h; cases h
  | some pair =>
    have := (drop_of_cellPair (o := pair.1) (r := pair.2) hp).1
    omega

theorem insnAt_encodeProgram (hw : 3 ≤ P.cellW) {p : List Instr} (wellFormed : ∀ i ∈ p, i.WellFormed)
    (k : Nat) : insnAt (encodeProgram p : List (Cell P)) k = p[k]? := by
  induction p generalizing k with
  | nil => rfl
  | cons i p ih =>
    obtain ⟨hi, hp⟩ := List.forall_mem_cons.mp wellFormed
    rw [encodeProgram_cons]
    cases k with
    | zero => rw [insnAt_of_cellPair (cellPair_cons_zero _ _ _), decodePair_encoded hw hi]; rfl
    | succ k => rw [insnAt, cellPair_cons_succ, ← insnAt, ih hp, List.getElem?_cons_succ]

theorem scanPairs_encodeProgram (hw : 3 ≤ P.cellW) {p : List Instr} (wellFormed : ∀ i ∈ p, i.WellFormed)
    (idx : Nat) : scanPairs idx (encodeProgram p : List (Cell P)) = (.valid, 0) := by
  induction p generalizing idx with
  | nil => rfl
  | cons i p ih =>
    obtain ⟨hi, hp⟩ := List.forall_mem_cons.mp wellFormed
    rw [encodeProgram_cons, scanPairs_of_ok (decodePair_encoded hw hi), ih hp]

theorem decodeProgram_encodeProgram (hw : 3 ≤ P.cellW) {p : List Instr} (wellFormed : ∀ i ∈ p, i.WellFormed) :
    decodeProgram false (encodeProgram p : List (Cell P)) = (.valid, 0) := by
  rw [decodeProgram_even (by rw [length_encodeProgram]; omega), scanPairs_encodeProgram hw wellFormed]

/-- A scan that answers VALID has read the cells of a program of well-formed instructions. -/
theorem encodeProgram_of_scan_valid (idx : Nat) (cells : List Cell) (h : (scanPairs idx cells).1 = .valid) :
    ∃ p : List Instr, (∀ i ∈ p, i.WellFormed) ∧ encodeProgram p = cells := by
  induction idx, cells using scanPairs.induct with
  | case1 idx o r rest i hd ih =>
    rw [scanPairs_of_ok hd] at h
    obtain ⟨p, hp, rfl⟩ := ih h
    obtain ⟨hi, pair⟩ := encodeCells_of_decodePair hd
    exact ⟨i :: p, List.forall_mem_cons.mpr ⟨hi, hp⟩, congrArg (· ++ encodeProgram p) pair⟩
  | case2 idx o r rest hd => rw [scanPairs_of_invalidOpcode hd] at h; cases h
  | case3 idx o r rest hd => rw [scanPairs_of_invalidOperand hd] at h; cases h
  | case4 idx c => cases h
  | case5 => exact ⟨[], by simp, rfl⟩

/-- DECODE answers VALID only without an overflow and with no cell left over, and it is then the scan's
answer. -/
theorem decodeProgram_valid {ovf : Bool} {cells : List (Cell P)} (h : (decodeProgram ovf cells).1 = .valid) :
    ovf = false ∧ cells.length % 2 = 0 ∧ (scanPairs 0 cells).1 = .valid := by
  cases ovf with
  | true => cases h
  | false =>
    rcases Nat.mod_two_eq_zero_or_one cells.length with even | odd
    · exact ⟨rfl, even, by rwa [decodeProgram_even even] at h⟩
    · rw [decodeProgram_odd odd] at h; cases h

end Sys2Proof
end

section
/-! Decode and encode (30_encoding.md R82 to R93). -/

namespace Sys2Proof.Machine

/-- Settles O4: the round trip of the fields, each way. -/
theorem decodeAndEncodeAgree : Obligations.DecodeAndEncodeAgree :=
  ⟨fun _ => decodeWord_encode, fun _ _ => wellFormed_and_encode_of_decodeWord⟩

/-- Settles O5: by induction on the program one way, along the scan the other. -/
theorem validProgramsAreTheEncodedOnes : Obligations.ValidProgramsAreTheEncodedOnes := by
  refine ⟨fun p wellFormed => ⟨?decodes, fun k hk => ?insn⟩, fun cells valid => ?encoded⟩
  case decodes => exact decodeProgram_encodeProgram (by decide) wellFormed
  case insn => rw [insnAt_encodeProgram (by decide) wellFormed, List.getElem?_eq_getElem hk]
  case encoded =>
    obtain ⟨-, -, scan⟩ := decodeProgram_valid valid
    exact encodeProgram_of_scan_valid 0 cells scan

/-- Settles O1: the eight words by evaluation. -/
theorem wordsDecodeAsTheOpcodeMapSays : Obligations.WordsDecodeAsTheOpcodeMapSays :=
  ⟨rfl, rfl, rfl, rfl, rfl, rfl, rfl, rfl⟩

/-- Settles O2: the fields that `decodeFields_error` names are illegal, and no others. -/
theorem onlyRawSevenOnAComboOpcodeIsIllegal : Obligations.OnlyRawSevenOnAComboOpcodeIsIllegal := by
  intro op raw
  rw [decodeWord_append]
  refine ⟨fun illegal => (decodeFields_error op raw _).mpr ⟨illegal, rfl⟩, fun legal => ?decodes⟩
  case decodes =>
    cases hd : decodeFields op raw with
    | ok i => exact ⟨i, rfl⟩
    | error e => exact absurd ((decodeFields_error op raw e).mp hd).1 legal

end Sys2Proof.Machine
end

section
/-! SUPPORT. The invariant (`Inv`) under every operation of a step, at any parameters: what it does not read,
what an instruction and a stop of the run do to it, and what a host write and reset do to it. -/

namespace Sys2Proof.Machine

variable {P : Params} {s t : State P}

/-- A word below its largest value grows by one without a wrap. -/
theorem toNat_succ_of_lt {w : Nat} {v : BitVec w} (h : v.toNat + 1 < 2 ^ w) : (v + 1).toNat = v.toNat + 1 := by
  have one : (1 : BitVec w).toNat = 1 := Nat.mod_eq_of_lt (show 1 < 2 ^ w by omega)
  rw [BitVec.toNat_add, one, Nat.mod_eq_of_lt h]

/-! What the invariant reads -/

/-- The state without what the invariant does not read. -/
def invView (s : State P) : State P :=
  { s with A := 0, B := 0, C := 0, outIndex := 0, cmdRejected := false, events := [], later := .machine,
           readData := none }

theorem inv_invView : Inv (invView s) ↔ Inv s :=
  ⟨fun h => ⟨h.stores, h.overflow, h.decoded, h.runsValid, h.pcBound, h.pcInRun, h.faultRecord, h.faultIndex,
      h.idleFresh, h.withinLimit⟩,
    fun h => ⟨h.stores, h.overflow, h.decoded, h.runsValid, h.pcBound, h.pcInRun, h.faultRecord, h.faultIndex,
      h.idleFresh, h.withinLimit⟩⟩

theorem Inv.of_invView_eq (h : Inv s) (e : invView t = invView s) : Inv t :=
  inv_invView.mp (e ▸ inv_invView.mpr h)

/-! What follows from it -/

theorem Memory.wf_iff (cells : List (Cell P)) (out : List (OutValue P)) :
    Memory.wf cells out = true ↔ cells.length ≤ P.progCapRaw ∧
      cells.all (fun c => !c.bad || c.value == 0) = true ∧ out.length ≤ P.outCap := by
  simp only [Memory.wf, Bool.and_eq_true, decide_eq_true_eq, and_assoc]

theorem Inv.insnCount_le (h : Inv s) : s.insnCount ≤ P.progCap := by
  obtain ⟨capacity, -, -⟩ := (Memory.wf_iff _ _).mp h.stores
  exact Nat.div_le_div_right capacity

/-- The counter holds `PROG_CAP` (00_scope.md R6), so it does not wrap inside a program (10_state.md R24). -/
theorem Inv.toNat_pc_succ (h : Inv s) (legal : P.Legal) (inside : s.pc.toNat < s.insnCount) :
    (s.pc + 1).toNat = s.pc.toNat + 1 := by
  have := h.insnCount_le
  have := legal.pcHoldsEnd
  exact toNat_succ_of_lt (by omega)

/-- Outside FAULT no fault is recorded. -/
theorem Inv.faultCause_eq_none (h : Inv s) (noFault : s.runState ≠ .fault) : s.faultCause = .none :=
  not_not.mp (mt h.faultRecord.mpr noFault)

theorem Inv.decodeProgram_valid (h : Inv s) (running : s.runState = .running) :
    (decodeProgram s.loadOvf s.cells).1 = .valid := by
  have valid := h.runsValid running
  rcases h.decoded with ⟨notDecoded, -⟩ | decoded
  · rw [valid] at notDecoded; cases notDecoded
  · rw [← decoded, valid]

/-- In a run the fetch finds an instruction (20_memory.md R70). -/
theorem Inv.fetch_ok (h : Inv s) (running : s.runState = .running) (inside : s.pc.toNat < s.insnCount) :
    ∃ i, fetch s = .ok i := by
  obtain ⟨i, hi⟩ := insnAt_of_valid _ _ (h.decodeProgram_valid running) _ inside
  exact ⟨i, (fetch_eq_ok s i).mpr ⟨h.runsValid running, hi⟩⟩

/-! The machine's moves -/

/-- A run stops without a fault: HALTED and LIMIT change STATE alone. -/
theorem Inv.stopped (h : Inv s) (running : s.runState = .running) {r : RunState}
    (hr : r = .halted ∨ r = .limit) : Inv { s with runState := r } := by
  have noRecord : s.faultCause = .none := h.faultCause_eq_none (by simp [running])
  have zero : s.faultPc = 0 := by rw [h.faultIndex, if_neg (by simp [running])]
  rcases hr with rfl | rfl
  all_goals exact { h with
    runsValid := nofun, pcInRun := nofun, idleFresh := nofun, withinLimit := nofun
    faultRecord := by simp [noRecord]
    faultIndex := by simpa using zero }

/-- An instruction completes: `pc` and `STEPS` move, and an output within the capacity may. -/
theorem Inv.completed (h : Inv s) (running : s.runState = .running)
    (below : s.stepLimit = 0 ∨ s.steps ≠ s.stepLimit) {pc : Pc P} (hpc : pc.toNat ≤ max s.insnCount 3)
    {out : List (OutValue P)} (stores : Memory.wf s.cells out = true) :
    Inv { s with pc := pc, steps := s.steps + 1, out := out } := by
  have := h.insnCount_le
  refine { h with
    stores := stores, pcBound := ?bound, pcInRun := fun _ => hpc, idleFresh := ?notIdle, faultIndex := ?noFault,
    withinLimit := fun _ limited => ?limit }
  case bound => show pc.toNat ≤ _; omega
  case notIdle => intro idle; rw [running] at idle; cases idle
  case noFault => simpa [running] using h.faultIndex
  case limit =>
    have within := h.withinLimit running limited
    have notReached : s.steps.toNat ≠ s.stepLimit.toNat := mt BitVec.eq_of_toNat_eq (below.resolve_left limited)
    have noWrap : (s.steps + 1).toNat ≤ s.steps.toNat + 1 := by
      rw [BitVec.toNat_add]
      exact (Nat.mod_le _ _).trans (Nat.add_le_add_left (Nat.mod_le _ _) _)
    show (s.steps + 1).toNat ≤ s.stepLimit.toNat
    omega

/-- An instruction faults. -/
theorem Inv.faulted (h : Inv s) {c : FaultCause} (hc : c ≠ .none) : Inv (raiseFault c s) :=
  { h with
    runsValid := nofun, pcInRun := nofun, idleFresh := nofun, withinLimit := nofun
    faultRecord := by simpa using hc
    faultIndex := rfl }

theorem Inv.after_execAt (h : Inv s) (legal : P.Legal) (running : s.runState = .running)
    (inside : s.pc.toNat < s.insnCount) (below : s.stepLimit = 0 ∨ s.steps ≠ s.stepLimit) {i : Instr}
    (step : execAt i s = .next t) : Inv t := by
  have advanced : (npc s).toNat ≤ max s.insnCount 3 := by
    rw [npc, h.toNat_pc_succ legal inside]; omega
  rcases execAt_cases i s with ⟨r, x, e⟩ | ⟨p, target, e⟩ | ⟨v, room, e⟩ | ⟨c, hc, e⟩ <;>
    cases e.symm.trans step
  · exact (h.completed running below advanced h.stores).of_invView_eq (by cases r <;> rfl)
  · refine h.completed running below ?_ h.stores
    rcases target with rfl | low <;> omega
  · exact h.completed running below advanced (outAppend_wf v s h.stores room)
  · exact h.faulted hc

theorem Inv.after_machineStep (h : Inv s) (legal : P.Legal) (step : machineStep s = .next t) : Inv t := by
  rcases machineStep_cases s with ⟨-, e⟩ | ⟨running, -, e⟩ | ⟨running, -, -, -, e⟩ |
    ⟨running, inside, below, ⟨i, -, e⟩ | ⟨f, -, e⟩⟩ <;> rw [e] at step
  · cases step; exact h
  · cases step; exact h.stopped running (.inl rfl)
  · cases step; exact h.stopped running (.inr rfl)
  · exact h.after_execAt legal running inside below step
  · cases step

/-! The host and reset -/

/-- A `PROG_DATA` write leaves the store full where it sets `LOAD_OVF`, and the decode status NOT_DECODED. -/
theorem Inv.after_progData (h : Inv s) (stopped : s.runState ≠ .running) (w : HostWord P) : Inv (progData w s) := by
  obtain ⟨capacity, -, -⟩ := (Memory.wf_iff _ _).mp h.stores
  have stores := progData_wf w s h.stores
  rcases Nat.lt_or_ge s.progLen P.progCapRaw with room | full
  · rw [progData_of_room room] at stores ⊢
    exact { h with
      stores := stores
      overflow := fun ovf => absurd (h.overflow ovf) room.ne
      decoded := .inl ⟨rfl, rfl⟩
      runsValid := fun running => absurd running stopped
      pcInRun := fun running => absurd running stopped }
  · rw [progData_of_full full] at stores ⊢
    exact { h with
      stores := stores
      overflow := fun _ => Nat.le_antisymm capacity full
      decoded := .inl ⟨rfl, rfl⟩
      runsValid := fun running => absurd running stopped }

theorem Inv.after_progClear (h : Inv s) (stopped : s.runState ≠ .running) : Inv (progClear s) :=
  { h with
    stores := progClear_wf s h.stores
    overflow := nofun
    decoded := .inl ⟨rfl, rfl⟩
    runsValid := fun running => absurd running stopped
    pcInRun := fun running => absurd running stopped }

theorem Inv.after_decodeCommand (h : Inv s) (stopped : s.runState ≠ .running) : Inv (decodeCommand s) :=
  { h with
    decoded := .inr rfl
    runsValid := fun running => absurd running stopped }

theorem Inv.after_startRun (h : Inv s) (valid : s.decCode = .valid) : Inv (startRun s) :=
  { h with
    stores := startRun_wf s h.stores
    runsValid := fun _ => valid
    pcBound := by simp
    pcInRun := by simp
    faultRecord := by simp
    faultIndex := rfl
    idleFresh := nofun
    withinLimit := by simp }

theorem Inv.after_ctrlWrite (h : Inv s) (stopped : s.runState ≠ .running) (w : HostWord P) : Inv (ctrlWrite w s) := by
  have accepted : Inv (accept s) := h.of_invView_eq rfl
  rcases ctrlWrite_cases w s with e | e | e | ⟨valid, e⟩ | e <;> rw [e]
  · exact accepted
  · exact accepted.after_progClear stopped
  · exact accepted.after_decodeCommand stopped
  · exact accepted.after_startRun valid
  · exact h.of_invView_eq rfl

theorem Inv.after_hostWrite (h : Inv s) (addr : Nat) (w : HostWord P) : Inv (hostWrite addr w s) := by
  rcases hostWrite_cases addr w s with ⟨-, e⟩ | ⟨stopped, e | e | e | e | e | e | e | e⟩ <;> rw [e]
  · exact h.of_invView_eq rfl
  · exact h.after_ctrlWrite stopped w
  · exact h.after_progData stopped w
  · exact h.of_invView_eq rfl
  · exact h.of_invView_eq rfl
  · exact h.of_invView_eq rfl
  · exact h.of_invView_eq rfl
  · exact { h with withinLimit := fun running => absurd running stopped }
  · exact h

theorem inv_resetAt (P : Params) : Inv (State.resetAt P) where
  stores := by simp [Memory.wf, State.resetAt]
  overflow := nofun
  decoded := .inl ⟨rfl, rfl⟩
  runsValid := nofun
  pcBound := by simp [State.resetAt]
  pcInRun := nofun
  faultRecord := by simp [State.resetAt]
  faultIndex := rfl
  idleFresh := fun _ => ⟨rfl, rfl, rfl⟩
  withinLimit := nofun

/-! A step, and any number of them -/

theorem Inv.after_takeEvent (h : Inv s) (legal : P.Legal) {e : Event P} (step : takeEvent e s = .next t) : Inv t := by
  cases e with
  | machine => exact h.after_machineStep legal step
  | read addr => cases step; exact h.of_invView_eq rfl
  | write addr w => cases step; exact h.after_hostWrite addr w
  | reset => cases step; exact (inv_resetAt P).of_invView_eq rfl

/-- Taking an event off the schedule keeps the invariant. -/
theorem Inv.after_nextEvent (h : Inv s) (f : Nat → Event P) : Inv (nextEvent f s).2 := by
  obtain ⟨es, l, e⟩ := nextEvent_state f s
  exact h.of_invView_eq (by rw [e]; rfl)

theorem Inv.after_stepUnder (h : Inv s) (legal : P.Legal) {f : Nat → Event P}
    (step : stepUnder f s = .next t) : Inv t :=
  (h.after_nextEvent f).after_takeEvent legal step

/-- An instruction always has a next state. -/
theorem execAt_next (i : Instr) (s : State P) : ∃ t, execAt i s = .next t := by
  rcases execAt_cases i s with ⟨_, _, e⟩ | ⟨_, -, e⟩ | ⟨_, -, e⟩ | ⟨_, -, e⟩ <;> exact ⟨_, e⟩

theorem Inv.machineStep_next (h : Inv s) : ∃ t, machineStep s = .next t := by
  rcases machineStep_cases s with ⟨-, e⟩ | ⟨-, -, e⟩ | ⟨-, -, -, -, e⟩ |
    ⟨running, inside, -, ⟨i, -, e⟩ | ⟨f, failed, -⟩⟩
  · exact ⟨_, e⟩
  · exact ⟨_, e⟩
  · exact ⟨_, e⟩
  · rw [e]; exact execAt_next i s
  · obtain ⟨i, fetched⟩ := h.fetch_ok running inside
    rw [fetched] at failed; cases failed

theorem Inv.stepUnder_next (h : Inv s) (f : Nat → Event P) : ∃ t, stepUnder f s = .next t := by
  unfold stepUnder
  cases (nextEvent f s).1 with
  | machine => exact (h.after_nextEvent f).machineStep_next
  | read addr => exact ⟨_, rfl⟩
  | write addr w => exact ⟨_, rfl⟩
  | reset => exact ⟨_, rfl⟩

/-- Every interleaving is a run, and all its states meet the invariant. -/
theorem Inv.runUnder_next (h : Inv s) (legal : P.Legal) (f : Nat → Event P) (n : Nat) :
    ∃ t, runUnder f n s = .next t ∧ Inv t := by
  induction n generalizing s with
  | zero => exact ⟨s, rfl, h⟩
  | succ n ih =>
    obtain ⟨s', step⟩ := h.stepUnder_next f
    rw [runUnder_succ f n s s' step]
    exact ih (h.after_stepUnder legal step)

end Sys2Proof.Machine
end

section
/-! The invariant of every reachable state (10_state.md; 20_memory.md R66, R70). -/

namespace Sys2Proof.Machine

/-- Settles O46: `step` is a step under an interleaving, and by the event it takes the invariant is kept. -/
theorem everyStepKeepsTheInvariant : Obligations.EveryStepKeepsTheInvariant :=
  ⟨fun _ _ h step => h.after_stepUnder hardware_legal step,
    fun _ legal _ _ _ h step => h.after_stepUnder legal step⟩

/-- Settles O47: only the fetch could stop, and under the invariant it finds an instruction. -/
theorem noStepStopsUnderTheInvariant : Obligations.NoStepStopsUnderTheInvariant :=
  ⟨fun _ h => h.stepUnder_next _, fun _ f _ h => h.stepUnder_next f⟩

/-- Settles O45: clause by clause on `State.resetAt`. -/
theorem resetMeetsTheInvariant : Obligations.ResetMeetsTheInvariant :=
  ⟨inv_resetAt Config.hardware, inv_resetAt⟩

/-- Settles O48: `N` is at most `PROG_CAP`, which the counter holds. -/
theorem thePcNeverWraps : Obligations.ThePcNeverWraps :=
  fun _ legal _ h inside => h.toNat_pc_succ legal inside

end Sys2Proof.Machine
end

section
/-! SUPPORT. Signed readings of patterns (00_scope.md R8): small values, quotients by powers of two, and xor. -/

namespace Sys2Proof

variable {w : Nat}

theorem sint_nonneg_iff_msb {v : BitVec w} : 0 ≤ sint v ↔ v.msb = false :=
  BitVec.toInt_pos_iff.trans BitVec.msb_eq_false_iff_two_mul_lt.symm

/-- A raw value reads as itself in a register. -/
theorem sint_zext_raw (hw : 4 ≤ w) (raw : Raw) : sint (zext w raw) = raw.toNat := by
  have sixteen : 2 ^ 4 ≤ 2 ^ w := Nat.pow_le_pow_right (by decide) hw
  have := raw.isLt
  have small : (zext w raw).toNat = raw.toNat := (BitVec.toNat_setWidth _ _).trans (Nat.mod_eq_of_lt (by omega))
  rw [sint, BitVec.toInt_eq_toNat_of_lt (by omega), small]

theorem sint_ofNat {n : Nat} (h : 2 * n < 2 ^ w) : sint (BitVec.ofNat w n) = n := by
  have small : (BitVec.ofNat w n).toNat = n := Nat.mod_eq_of_lt (by omega)
  rw [sint, BitVec.toInt_eq_toNat_of_lt (by omega), small]

/-! Quotients -/

theorem tdiv_two_pow_nonneg {a : Int} (h : 0 ≤ a) (k : Nat) : 0 ≤ a.tdiv (2 ^ k) :=
  Int.tdiv_nonneg h (by positivity)

theorem tdiv_two_pow_nonpos {a : Int} (h : a ≤ 0) (k : Nat) : a.tdiv (2 ^ k) ≤ 0 := by
  have := tdiv_two_pow_nonneg (a := -a) (by omega) k
  rw [Int.neg_tdiv] at this
  omega

/-- Two roundings toward zero are one. -/
theorem tdiv_two_pow_add (a : Int) (j k : Nat) : (a.tdiv (2 ^ j)).tdiv (2 ^ k) = a.tdiv (2 ^ (j + k)) := by
  have nat (n : Nat) : ((n : Int).tdiv (2 ^ j)).tdiv (2 ^ k) = (n : Int).tdiv (2 ^ (j + k)) := by
    have := congrArg Int.ofNat (Nat.div_div_eq_div_mul n (2 ^ j) (2 ^ k))
    rw [← Nat.pow_add] at this
    exact_mod_cast this
  obtain ⟨n, rfl | rfl⟩ := Int.eq_nat_or_neg a
  · exact nat n
  · rw [Int.neg_tdiv, Int.neg_tdiv, Int.neg_tdiv, nat n]

/-- On a non-negative value the quotient is the logical shift. -/
theorem bits_tdiv_two_pow {a : BitVec w} (h : 0 ≤ sint a) (k : Nat) : bits w ((sint a).tdiv (2 ^ k)) = a >>> k := by
  have quotient : (sint a).tdiv (2 ^ k) = ((a.toNat / 2 ^ k : Nat) : Int) := by
    rw [sint, BitVec.toInt_eq_toNat_of_msb (sint_nonneg_iff_msb.mp h), Int.ofNat_tdiv]; norm_cast
  apply BitVec.eq_of_toNat_eq
  rw [quotient, bits, BitVec.ofInt_natCast, BitVec.toNat_ofNat, BitVec.toNat_ushiftRight, Nat.shiftRight_eq_div_pow]
  exact Nat.mod_eq_of_lt ((Nat.div_le_self _ _).trans_lt a.isLt)

/-! Xor -/

/-- A negative pattern denotes the bitwise complement of its complement's value. -/
theorem sint_of_msb {v : BitVec w} (h : v.msb = true) : sint v = Int.negSucc (~~~v).toNat := by
  have := v.isLt
  rw [sint, BitVec.toInt_eq_msb_cond, if_pos h, BitVec.toNat_not]
  omega

theorem sint_of_not_msb {v : BitVec w} (h : v.msb = false) : sint v = Int.ofNat v.toNat :=
  BitVec.toInt_eq_toNat_of_msb h

/-- Xor of patterns is xor in unbounded two's complement (40_execution_cycle.md R123). -/
theorem sint_xor (a b : BitVec w) : sint (a ^^^ b) = Int.xor (sint a) (sint b) := by
  have msb : (a ^^^ b).msb = (a.msb ^^ b.msb) := BitVec.msb_xor
  cases ha : a.msb <;> cases hb : b.msb <;> rw [ha, hb] at msb
  · rw [sint_of_not_msb msb, sint_of_not_msb ha, sint_of_not_msb hb, BitVec.toNat_xor]; rfl
  · rw [sint_of_msb msb, sint_of_not_msb ha, sint_of_msb hb, BitVec.not_xor_right, BitVec.toNat_xor]; rfl
  · rw [sint_of_msb msb, sint_of_msb ha, sint_of_not_msb hb, BitVec.not_xor_left, BitVec.toNat_xor]; rfl
  · have : a ^^^ b = ~~~a ^^^ ~~~b := by rw [← BitVec.not_xor_left, ← BitVec.not_xor_right, BitVec.not_not]
    rw [sint_of_not_msb msb, sint_of_msb ha, sint_of_msb hb, this, BitVec.toNat_xor]; rfl

theorem xor_nonneg {a b : BitVec w} (ha : 0 ≤ sint a) (hb : 0 ≤ sint b) : 0 ≤ sint (a ^^^ b) := by
  rw [sint_nonneg_iff_msb] at *
  rw [BitVec.msb_xor, ha, hb]; rfl

/-! The low three bits -/

namespace Machine

/-- The remainder by 8 of the integer is the low three bits of the pattern (90_conflicts.md C3). -/
theorem sint_emod_eight (hw : 3 ≤ w) (v : BitVec w) : sint v % 8 = (lowThree v).toNat := by
  obtain ⟨c, hc⟩ : 2 ^ 3 ∣ 2 ^ w := Nat.pow_dvd_pow 2 hw
  rw [toNat_lowThree hw, sint, BitVec.toInt_eq_toNat_cond, hc]
  split <;> omega

theorem toNat_zext_lowThree (hw : 3 ≤ w) {n : Nat} (hn : 3 ≤ n) (v : BitVec w) :
    (zext n (lowThree v)).toNat = v.toNat % 8 := by
  have := eight_le_two_pow hn
  rw [BitVec.toNat_setWidth, toNat_lowThree hw, Nat.mod_eq_of_lt (by omega)]

end Machine
end Sys2Proof
end

section
/-! SUPPORT. Each instruction's next state, at any parameters, and the fault it takes instead
(40_execution_cycle.md R117, R121; 60_exceptions.md R171, R172). -/

namespace Sys2Proof.Machine

variable {P : Params} {s t : State P} {i : Instr}

/-! Which fault -/

/-- The fault that an instruction takes in a state, where it takes one (60_exceptions.md R172). -/
def faultOf (i : Instr) (s : State P) : Option FaultCause :=
  match i with
  | .shiftRightA v | .shiftRightB v | .shiftRightC v =>
    if sint (resolve v s) < 0 then some .negativeShift else none
  | .jumpIfANonZero raw => if s.A ≠ 0 ∧ raw.toNat % 2 = 1 then some .invalidJumpTarget else none
  | .emit _ => if P.outCap ≤ s.outCount then some .outputOverflow else none
  | .xorImmediateIntoB _ | .truncateIntoB _ | .xorBWithC _ => none

/-- The instruction and the condition of each fault. -/
theorem faultOf_inv {c : FaultCause} (h : faultOf i s = some c) :
    (c = .negativeShift ∧ ∃ v, (i = .shiftRightA v ∨ i = .shiftRightB v ∨ i = .shiftRightC v) ∧
      sint (resolve v s) < 0) ∨
    (c = .invalidJumpTarget ∧ ∃ raw, i = .jumpIfANonZero raw ∧ s.A ≠ 0 ∧ raw.toNat % 2 = 1) ∨
    (c = .outputOverflow ∧ ∃ v, i = .emit v ∧ P.outCap ≤ s.outCount) := by
  cases i with
  | shiftRightA v | shiftRightB v | shiftRightC v =>
    obtain ⟨negative, rfl⟩ : sint (resolve v s) < 0 ∧ .negativeShift = c := by simpa [faultOf] using h
    exact .inl ⟨rfl, v, by simp, negative⟩
  | jumpIfANonZero raw =>
    obtain ⟨⟨nonzero, odd⟩, rfl⟩ : (s.A ≠ 0 ∧ raw.toNat % 2 = 1) ∧ .invalidJumpTarget = c := by
      simpa only [faultOf, Option.ite_none_right_eq_some, Option.some.injEq] using h
    exact .inr (.inl ⟨rfl, raw, rfl, nonzero, odd⟩)
  | emit v =>
    obtain ⟨full, rfl⟩ : P.outCap ≤ s.outCount ∧ .outputOverflow = c := by simpa [faultOf] using h
    exact .inr (.inr ⟨rfl, v, rfl, full⟩)
  | xorImmediateIntoB raw | truncateIntoB v | xorBWithC raw => cases h

/-- An instruction with a fault to take takes it and does nothing else. -/
theorem execAt_of_faultOf {c : FaultCause} (h : faultOf i s = some c) : execAt i s = .next (raiseFault c s) := by
  rcases faultOf_inv h with ⟨rfl, v, shift, negative⟩ | ⟨rfl, raw, rfl, nonzero, odd⟩ | ⟨rfl, v, rfl, full⟩
  · rcases shift with rfl | rfl | rfl <;> exact shiftInto_of_neg _ negative
  · exact execJump_of_odd nonzero odd
  · exact execEmit_of_full full

theorem faultOf_ne_none {c : FaultCause} (h : faultOf i s = some c) : c ≠ .none := by
  rcases faultOf_inv h with ⟨rfl, -⟩ | ⟨rfl, -⟩ | ⟨rfl, -⟩ <;> exact nofun

/-! What a completed instruction writes -/

/-- The quotient that a shift writes (41_shift.md R130). -/
def quotient (v : Operand) (s : State P) : Word P :=
  bits P.regW ((sint s.A).tdiv (2 ^ (sint (resolve v s)).toNat))

/-- The register that an instruction writes and the value it gets, where it writes one (10_state.md R21). -/
def writeOf (i : Instr) (s : State P) : Option (Reg × Word P) :=
  match i with
  | .shiftRightA v => some (.A, quotient v s)
  | .xorImmediateIntoB raw => some (.B, s.B ^^^ literal raw)
  | .truncateIntoB v => some (.B, zext P.regW (lowThree (resolve v s)))
  | .xorBWithC _ => some (.B, s.B ^^^ s.C)
  | .shiftRightB v => some (.B, quotient v s)
  | .shiftRightC v => some (.C, quotient v s)
  | .jumpIfANonZero _ | .emit _ => none

/-- Without a fault an instruction completes: it writes its register, jumps, or appends one entry. -/
inductive Completes (i : Instr) (s : State P) : State P → Prop
  | writes (r : Reg) (x : Word P) (write : writeOf i s = some (r, x)) :
      Completes i s (complete (npc s) (writeReg r x s))
  | goesOn (raw : Raw) (jump : i = .jumpIfANonZero raw) (zero : s.A = 0) : Completes i s (complete (npc s) s)
  | jumps (raw : Raw) (jump : i = .jumpIfANonZero raw) (nonzero : s.A ≠ 0) (even : raw.toNat % 2 = 0) :
      Completes i s (complete (jumpTarget raw) s)
  | appends (v : Operand) (emit : i = .emit v) (room : s.outCount < P.outCap) :
      Completes i s (complete (npc s) (outAppend (zext P.outW (lowThree (resolve v s))) s))

theorem execAt_of_no_fault (h : faultOf i s = none) : ∃ t, execAt i s = .next t ∧ Completes i s t := by
  cases i with
  | shiftRightA v | shiftRightB v | shiftRightC v =>
    have nonneg : 0 ≤ sint (resolve v s) := by simpa [faultOf] using h
    exact ⟨_, shiftInto_of_nonneg _ nonneg, .writes _ _ rfl⟩
  | xorImmediateIntoB raw | truncateIntoB v | xorBWithC raw => exact ⟨_, rfl, .writes .B _ rfl⟩
  | jumpIfANonZero raw =>
    rcases execJump_cases raw s with ⟨zero, e⟩ | ⟨nonzero, even, e⟩ | ⟨nonzero, odd, -⟩
    · exact ⟨_, e, .goesOn raw rfl zero⟩
    · exact ⟨_, e, .jumps raw rfl nonzero even⟩
    · rw [faultOf, if_pos ⟨nonzero, odd⟩] at h; cases h
  | emit v =>
    have room : s.outCount < P.outCap := by simpa [faultOf] using h
    exact ⟨_, execEmit_of_room room, .appends v rfl room⟩

/-- Everything an instruction can do, with its fault or what it writes. -/
theorem execAt_inv (h : execAt i s = .next t) :
    (faultOf i s = none ∧ Completes i s t) ∨ (∃ c, faultOf i s = some c ∧ t = raiseFault c s) := by
  cases hf : faultOf i s with
  | none =>
    obtain ⟨t', e, completes⟩ := execAt_of_no_fault hf
    cases e.symm.trans h
    exact .inl ⟨rfl, completes⟩
  | some c =>
    cases (execAt_of_faultOf hf).symm.trans h
    exact .inr ⟨c, rfl, rfl⟩

theorem exec_inv {s t : State} (h : exec i s = .next t) :
    (faultOf i s = none ∧ Completes i s t) ∨ (∃ c, faultOf i s = some c ∧ t = raiseFault c s) :=
  execAt_inv (by rwa [← exec_eq_execAt])

theorem Completes.steps (h : Completes i s t) : t.steps = s.steps + 1 := by
  cases h <;> simp

theorem Completes.record (h : Completes i s t) :
    t.runState = s.runState ∧ t.faultCause = s.faultCause ∧ t.faultPc = s.faultPc := by
  cases h <;> simp

/-- On this hardware a completed instruction is seen in STEPS, so that it is not mistaken for a fault. -/
theorem exec_eq_raiseFault_iff (i : Instr) (s : State) (c : FaultCause) :
    exec i s = .next (raiseFault c s) ↔ faultOf i s = some c := by
  refine ⟨fun h => ?_, fun h => (exec_eq_execAt i s).trans (execAt_of_faultOf h)⟩
  rcases exec_inv h with ⟨-, completes⟩ | ⟨c', hc', e⟩
  · have steps : s.steps = s.steps + 1 := completes.steps
    have : (1 : StepWord) = 0 := by simpa using steps.symm
    exact absurd this (by decide)
  · obtain rfl : c = c' := congrArg State.faultCause e
    exact hc'

end Sys2Proof.Machine
end

section
/-! SUPPORT. The non-negativity law (10_state.md R22). -/

namespace Sys2Proof.Machine

variable {P : Params} {s t : State P} {i : Instr}

theorem NonNegative.readReg (h : NonNegative s) (r : Reg) : 0 ≤ sint (readReg r s) := by
  obtain ⟨a, b, c⟩ := h
  cases r <;> assumption

theorem NonNegative.writeReg (h : NonNegative s) (r : Reg) {x : Word P} (hx : 0 ≤ sint x) :
    NonNegative (writeReg r x s) := by
  obtain ⟨a, b, c⟩ := h
  cases r
  · exact ⟨hx, b, c⟩
  · exact ⟨a, hx, c⟩
  · exact ⟨a, b, hx⟩

section
variable (legal : P.Legal)
include legal

theorem sint_zext_raw_nonneg (raw : Raw) : 0 ≤ sint (zext P.regW raw) := by
  have := legal.reg
  rw [sint_zext_raw (by omega)]
  exact Int.natCast_nonneg _

theorem NonNegative.resolve (h : NonNegative s) (v : Operand) : 0 ≤ sint (resolve v s) := by
  cases v with
  | imm raw => exact sint_zext_raw_nonneg legal raw
  | reg r => exact h.readReg r

/-- What an instruction writes is non-negative: a quotient of A, an xor, or three bits. -/
theorem NonNegative.writeOf (h : NonNegative s) {r : Reg} {x : Word P} (write : writeOf i s = some (r, x)) :
    0 ≤ sint x := by
  obtain ⟨a, b, c⟩ := h
  have shift (v : Operand) : 0 ≤ sint (quotient v s) := by
    rw [quotient, tdiv_fits]; exact tdiv_two_pow_nonneg a _
  cases i with
  | shiftRightA v | shiftRightB v | shiftRightC v => cases write; exact shift v
  | xorImmediateIntoB raw => cases write; exact xor_nonneg b (sint_zext_raw_nonneg legal raw)
  | xorBWithC raw => cases write; exact xor_nonneg b c
  | truncateIntoB v => cases write; exact sint_zext_raw_nonneg legal _
  | jumpIfANonZero raw | emit v => cases write

theorem NonNegative.completes (h : NonNegative s) (step : Completes i s t) : NonNegative t := by
  cases step with
  | writes r x write => exact h.writeReg r (h.writeOf legal write)
  | goesOn | jumps | appends => exact h

/-- From non-negative registers no shift amount is negative. -/
theorem NonNegative.faultOf_ne (h : NonNegative s) : faultOf i s ≠ some .negativeShift := by
  intro fault
  rcases faultOf_inv fault with ⟨-, v, -, negative⟩ | ⟨cause, -⟩ | ⟨cause, -⟩
  · exact absurd (h.resolve legal v) negative.not_ge
  · cases cause
  · cases cause

theorem NonNegative.execAt (h : NonNegative s) (step : execAt i s = .next t) : NonNegative t := by
  rcases execAt_inv step with ⟨-, completes⟩ | ⟨c, -, rfl⟩
  · exact h.completes legal completes
  · exact h

/-- The machine's step keeps the registers non-negative and records no NEGATIVE_SHIFT. -/
theorem NonNegative.machineStep (h : NonNegative s) (cause : s.faultCause ≠ .negativeShift)
    (step : machineStep s = .next t) : NonNegative t ∧ t.faultCause ≠ .negativeShift := by
  rcases machineStep_cases s with ⟨-, e⟩ | ⟨-, -, e⟩ | ⟨-, -, -, -, e⟩ |
    ⟨-, -, -, ⟨i, -, e⟩ | ⟨f, -, e⟩⟩ <;> rw [e] at step
  · cases step; exact ⟨h, cause⟩
  · cases step; exact ⟨h, cause⟩
  · cases step; exact ⟨h, cause⟩
  · refine ⟨h.execAt legal step, ?_⟩
    rcases execAt_inv step with ⟨-, completes⟩ | ⟨c, hc, rfl⟩
    · obtain ⟨-, kept, -⟩ := completes.record
      rwa [kept]
    · rintro rfl
      exact h.faultOf_ne legal hc
  · cases step

end

end Sys2Proof.Machine
end

section
/-! SUPPORT. Runs of a machine that moves alone: a property that the machine's step keeps holds along the run. -/

namespace Sys2Proof.Machine

variable {s t : State}

theorem step_of_alone (h : s.Alone) : step s = machineStep s := step_machine s h.1 h.2

theorem alone_of_machineStep (h : s.Alone) (step : machineStep s = .next t) : t.Alone := by
  obtain ⟨events, later⟩ := machineStep_schedule s t step
  exact ⟨events.trans h.1, later.trans h.2⟩

theorem run_induction {motive : State → Prop} (alone : s.Alone) (h : motive s)
    (keeps : ∀ u v, motive u → machineStep u = .next v → motive v) {n : Nat} (hrun : run n s = .next t) :
    motive t := by
  induction n generalizing s with
  | zero => cases hrun; exact h
  | succ n ih =>
    obtain ⟨s', hs, hr⟩ := run_succ_inv n s t hrun
    rw [step_of_alone alone] at hs
    exact ih (alone_of_machineStep alone hs) (keeps s s' h hs) hr

/-- The machine's step changes the output by appending at most one entry (44_output.md R162). -/
theorem machineStep_out {P : Params} {s t : State P} (step : machineStep s = .next t) : s.out <+: t.out := by
  rcases machineStep_cases s with ⟨-, e⟩ | ⟨-, -, e⟩ | ⟨-, -, -, -, e⟩ |
    ⟨-, -, -, ⟨i, -, e⟩ | ⟨f, -, e⟩⟩ <;> rw [e] at step
  · cases step; exact List.prefix_rfl
  · cases step; exact List.prefix_rfl
  · cases step; exact List.prefix_rfl
  · rcases execAt_cases i s with ⟨r, x, e⟩ | ⟨p, -, e⟩ | ⟨v, -, e⟩ | ⟨c, -, e⟩ <;>
      cases e.symm.trans step
    · simp
    · exact List.prefix_rfl
    · exact List.prefix_append _ _
    · exact List.prefix_rfl
  · cases step

end Sys2Proof.Machine
end

section
/-! The instructions together (10_state.md R21, R22; 40_execution_cycle.md R117; 60_exceptions.md R171, R172), and
the output of a run (44_output.md R162). -/

namespace Sys2Proof.Machine

/-- Settles O49: every value written is non-negative, and so is every shift amount. -/
theorem nonNegativeRunsNeverFaultOnAShift : Obligations.NonNegativeRunsNeverFaultOnAShift := by
  refine ⟨fun i s t h step => ?instruction, fun n s t h alone noFault hrun => ?run⟩
  case instruction => exact h.execAt hardware_legal (by rwa [← exec_eq_execAt])
  case run =>
    refine run_induction alone (motive := fun u => NonNegative u ∧ u.faultCause ≠ .negativeShift) ?_ ?_ hrun
    · exact ⟨h, by rw [noFault]; exact nofun⟩
    · exact fun u v hu step => hu.1.machineStep hardware_legal hu.2 step

/-- Settles O29: by whether the instruction has a fault to take. -/
theorem instructionsAreAtomic : Obligations.InstructionsAreAtomic := by
  intro i s
  rw [exec_eq_execAt]
  cases hf : faultOf i s with
  | none =>
    obtain ⟨t, e, completes⟩ := execAt_of_no_fault hf
    exact .inl ⟨t, e, completes.steps, completes.record⟩
  | some c => exact .inr ⟨c, faultOf_ne_none hf, execAt_of_faultOf hf⟩

/-- Settles O30: an instruction reaches a fault state exactly by the fault it takes, which `faultOf` gives
case by case. -/
theorem faultCausesAreExactly : Obligations.FaultCausesAreExactly := by
  intro i s capacity
  have full : Config.hardware.outCap ≤ s.outCount ↔ s.outCount = 256 := by
    show 256 ≤ s.outCount ↔ _; omega
  have causes (c : FaultCause) :
      exec i s = .next { s with faultCause := c, faultPc := s.pc, runState := .fault } ↔ faultOf i s = some c :=
    exec_eq_raiseFault_iff i s c
  rw [causes, causes, causes]
  cases i <;> simp [faultOf, full]

/-- Settles O31: a completed instruction writes what `writeOf` says, or jumps, or appends; a fault writes
its record. -/
theorem instructionsWriteOnlyTheirDestination : Obligations.InstructionsWriteOnlyTheirDestination := by
  intro i s t step
  rcases exec_inv step with ⟨-, completes⟩ | ⟨c, -, rfl⟩
  · cases completes with
    | writes r x write => cases i <;> cases write <;> simp [npc]
    | goesOn raw jump zero | jumps raw jump nonzero even => simp [jump]
    | appends v emit room => simp [emit, npc]
  · exact ⟨by simp, by simp, by simp, by simp, fun kept _ => .inl kept.symm, by simp⟩

/-- Settles O37: every step of the machine only appends. -/
theorem outputGrowsByAppension : Obligations.OutputGrowsByAppension :=
  fun _ s _ alone hrun => run_induction alone (motive := fun u => s.out <+: u.out) List.prefix_rfl
    (fun _ _ grown step => grown.trans (machineStep_out step)) hrun

end Sys2Proof.Machine
end

section
/-! SUPPORT. What the machine's step neither reads nor writes (20_memory.md R67; 00_scope.md R14). -/

namespace Sys2Proof.Machine

variable {P : Params} {s t a : State P}

/-- `s` with the parts that the machine's step neither reads nor writes taken from `u`. -/
def withHost (u s : State P) : State P :=
  { s with loadOvf := u.loadOvf, decIdx := u.decIdx, outIndex := u.outIndex, cmdRejected := u.cmdRejected,
           events := u.events, later := u.later, readData := u.readData }

/-- An outcome with its next state changed. -/
def mapNext {σ φ ρ : Type} (g : σ → σ) : Host.Outcome σ φ ρ → Host.Outcome σ φ ρ
  | .next s => .next (g s)
  | .fault f => .fault f
  | .refused r => .refused r

@[simp] theorem resolve_withHost (v : Operand) (u s : State P) : resolve v (withHost u s) = resolve v s := by
  cases v with
  | imm raw => rfl
  | reg r => cases r <;> rfl

theorem shiftInto_withHost (dst : Reg) (v : Operand) (u s : State P) :
    shiftInto dst v (withHost u s) = mapNext (withHost u) (shiftInto dst v s) := by
  rcases shiftInto_cases dst v s with ⟨nonneg, e⟩ | ⟨negative, e⟩ <;> rw [e]
  · rw [shiftInto_of_nonneg dst (by rwa [resolve_withHost]), resolve_withHost]
    cases dst <;> rfl
  · rw [shiftInto_of_neg dst (by rwa [resolve_withHost])]
    rfl

theorem execAt_withHost (i : Instr) (u s : State P) :
    execAt i (withHost u s) = mapNext (withHost u) (execAt i s) := by
  cases i with
  | shiftRightA v | shiftRightB v | shiftRightC v => exact shiftInto_withHost _ v u s
  | xorImmediateIntoB raw | xorBWithC raw => rfl
  | truncateIntoB v =>
    show execTruncateIntoB v (withHost u s) = mapNext (withHost u) (execTruncateIntoB v s)
    rw [execTruncateIntoB, resolve_withHost]; rfl
  | jumpIfANonZero raw =>
    show execJumpIfANonZero raw (withHost u s) = mapNext (withHost u) (execJumpIfANonZero raw s)
    rcases execJump_cases raw s with ⟨zero, e⟩ | ⟨nonzero, even, e⟩ | ⟨nonzero, odd, e⟩ <;> rw [e]
    · exact execJump_of_zero zero
    · exact execJump_of_even nonzero even
    · exact execJump_of_odd nonzero odd
  | emit v =>
    show execEmit v (withHost u s) = mapNext (withHost u) (execEmit v s)
    rcases Nat.lt_or_ge s.outCount P.outCap with room | full
    · rw [execEmit_of_room room, execEmit_of_room (s := withHost u s) room, resolve_withHost]; rfl
    · rw [execEmit_of_full full, execEmit_of_full (s := withHost u s) full]; rfl

theorem machineStep_withHost (u s : State P) :
    machineStep (withHost u s) = mapNext (withHost u) (machineStep s) := by
  have same : machineStep (withHost u s) =
      if s.runState = .running then
        if haltTest s then .next (haltRun (withHost u s))
        else if limitTest s then .next (limitRun (withHost u s)) else instructionStep (withHost u s)
      else .next (withHost u s) := rfl
  have insn : instructionStep (withHost u s) = mapNext (withHost u) (instructionStep s) := by
    have fetched : fetch (withHost u s) = fetch s := rfl
    rw [instructionStep, instructionStep, fetched]
    cases fetch s with
    | ok i => exact execAt_withHost i u s
    | error f => rfl
  rw [same, machineStep]
  split
  · split
    · rfl
    · split
      · rfl
      · exact insn
  · rfl

theorem machineStep_withHost_next (u : State P) (step : machineStep s = .next t) :
    machineStep (withHost u s) = .next (withHost u t) := by
  rw [machineStep_withHost, step]; rfl

/-- The machine's step writes none of them. -/
theorem withHost_of_machineStep (step : machineStep s = .next t) : withHost s t = t := by
  have self : machineStep s = .next (withHost s t) := machineStep_withHost_next s step
  exact (Host.Outcome.next.inj (step.symm.trans self)).symm

/-! Runs that differ only there -/

theorem run_withHost {s t u : State} (alone : s.Alone) (aloneU : u.Alone) {n : Nat} (hrun : run n s = .next t) :
    run n (withHost u s) = .next (withHost u t) := by
  induction n generalizing s with
  | zero => cases hrun; rfl
  | succ n ih =>
    obtain ⟨s', step, rest⟩ := run_succ_inv n s t hrun
    rw [step_of_alone alone] at step
    have stepU : Machine.step (withHost u s) = .next (withHost u s') := by
      rw [step_of_alone (s := withHost u s) aloneU, machineStep_withHost_next u step]
    rw [run_succ n _ _ stepU, ih (alone_of_machineStep alone step) rest]

/-- Two states of one view take the machine's step alike. -/
theorem machineStep_runView (view : runView a = runView s) (step : machineStep s = .next t) :
    ∃ b, machineStep a = .next b ∧ runView b = runView t := by
  have sameRun : withHost a s = a :=
    show withHost a (runView s) = withHost a (runView a) from congrArg _ view.symm
  refine ⟨withHost a t, by rw [← sameRun, machineStep_withHost_next _ step]; rfl, ?_⟩
  have kept : withHost s t = t := withHost_of_machineStep step
  calc runView (withHost a t)
      = { runView t with loadOvf := (runView a).loadOvf, decIdx := (runView a).decIdx } := rfl
    _ = runView (withHost s t) := by rw [view]; rfl
    _ = runView t := by rw [kept]

/-- In a run a host access changes nothing that the run depends on. -/
theorem takeEvent_runView (running : s.runState = .running) {e : Event P} (noMove : e ≠ .machine)
    (noReset : e ≠ .reset) (step : takeEvent e s = .next t) : runView t = runView s := by
  cases e with
  | machine => exact absurd rfl noMove
  | read addr => cases step; rfl
  | write addr w =>
    cases step
    rw [hostWrite_running addr w s running]; rfl
  | reset => exact absurd rfl noReset

/-! The events of a run -/

/-- The next `n` events of the schedule. -/
def upcoming (f : Nat → Event P) : Nat → State P → List (Event P)
  | 0, _ => []
  | n + 1, s => (nextEvent f s).1 :: upcoming f n (nextEvent f s).2

/-- They depend on the schedule alone. -/
theorem upcoming_congr (f : Nat → Event P) (n : Nat) (events : s.events = t.events) (later : s.later = t.later) :
    upcoming f n s = upcoming f n t := by
  induction n generalizing s t with
  | zero => rfl
  | succ n ih =>
    have next : (nextEvent f s).1 = (nextEvent f t).1 ∧ (nextEvent f s).2.events = (nextEvent f t).2.events ∧
        (nextEvent f s).2.later = (nextEvent f t).2.later := by
      unfold nextEvent
      rw [events, later]
      split
      · exact ⟨rfl, rfl, rfl⟩
      · split
        · exact ⟨rfl, events, later⟩
        · exact ⟨rfl, rfl, rfl⟩
    obtain ⟨sameEvent, nextEvents, nextLater⟩ := next
    rw [upcoming, upcoming, sameEvent, ih nextEvents nextLater]

theorem upcoming_of_events (f : Nat → Event P) {es : List (Event P)} (h : s.events = es) :
    upcoming f es.length s = es := by
  induction es generalizing s with
  | nil => rfl
  | cons e es ih => rw [List.length_cons, upcoming, nextEvent_cons f s e es h, ih rfl]

theorem upcoming_of_follows (f : Nat → Event P) {k : Nat} (h : s.Follows k) (n : Nat) :
    upcoming f n s = (List.range n).map (fun m => f (k + m)) := by
  induction n generalizing s k with
  | zero => rfl
  | succ n ih =>
    obtain ⟨events, later⟩ := h
    have rest := ih (s := { s with later := .schedule (k + 1) }) ⟨events, rfl⟩
    rw [upcoming, nextEvent_schedule f s k events later, rest, List.range_succ_eq_map, List.map_cons, List.map_map]
    exact congrArg (f k :: ·) (List.map_congr_left fun m _ => congrArg f (by omega))

/-- As long as a run is in progress and not reset, what an interleaving reaches is what the machine's moves
alone reach (20_memory.md R67). -/
theorem run_of_interleaving (f : Nat → Event) {n : Nat} {s t a : State} (alone : a.Alone)
    (view : runView a = runView s) (noReset : Event.reset ∉ upcoming f n s)
    (inProgress : ∀ m < n, ∃ u, runUnder f m s = .next u ∧ u.runState = .running)
    (hrun : runUnder f n s = .next t) :
    ∃ b, run ((upcoming f n s).count .machine) a = .next b ∧ runView b = runView t := by
  induction n generalizing s a with
  | zero => cases hrun; exact ⟨a, rfl, view⟩
  | succ n ih =>
    obtain ⟨s', step, rest⟩ := runUnder_succ_inv f n s t hrun
    obtain ⟨_, ⟨rfl⟩, running⟩ := inProgress 0 (by omega)
    obtain ⟨es, l, taken⟩ := nextEvent_state f s
    have viewTaken : runView (nextEvent f s).2 = runView s := by rw [taken]; rfl
    have runningTaken : (nextEvent f s).2.runState = .running := by rw [taken]; exact running
    have schedule := takeEvent_schedule _ _ _ step
    rw [upcoming, ← upcoming_congr f n schedule.1 schedule.2, List.mem_cons, not_or] at noReset
    rw [upcoming, ← upcoming_congr f n schedule.1 schedule.2, List.count_cons]
    have later : ∀ m < n, ∃ u, runUnder f m s' = .next u ∧ u.runState = .running := fun m hm => by
      have := inProgress (m + 1) (by omega)
      rwa [runUnder_succ f m s s' step] at this
    by_cases move : (nextEvent f s).1 = .machine
    · have moved : machineStep (nextEvent f s).2 = .next s' := by rwa [stepUnder, move] at step
      obtain ⟨a', stepA, viewA⟩ := machineStep_runView (view.trans viewTaken.symm) moved
      obtain ⟨b, runB, viewB⟩ := ih (alone_of_machineStep alone stepA) viewA noReset.2 later rest
      refine ⟨b, ?_, viewB⟩
      rw [if_pos (by simpa using move), run_succ _ a a' (by rw [step_of_alone alone, stepA]), runB]
    · have unchanged := takeEvent_runView runningTaken move (Ne.symm noReset.1) step
      obtain ⟨b, runB, viewB⟩ := ih alone (view.trans (unchanged.trans viewTaken).symm) noReset.2 later rest
      exact ⟨b, by rw [if_neg (by simpa using move), Nat.add_zero, runB], viewB⟩

end Sys2Proof.Machine
end

section
/-! The host beside a run (20_memory.md R66, R67; 00_scope.md R14). -/

namespace Sys2Proof.Machine

/-- Settles O41: a write is rejected, a read answered, and a listed interleaving is the machine's moves alone. -/
theorem theHostCannotAlterARun : Obligations.TheHostCannotAlterARun := by
  refine ⟨fun s addr w running => hostWrite_running addr w s running,
    fun s addr es running listed => step_cons s _ es listed, ?alone⟩
  case alone =>
    intro es s t listed noReset inProgress hrun
    have events := upcoming_of_events (Config.schedule Config.hardware) listed
    have := run_of_interleaving (Config.schedule Config.hardware) (s := s)
      (a := { s with events := [], later := .machine }) ⟨rfl, rfl⟩ rfl (by rwa [events]) inProgress hrun
    rwa [events] at this

/-- Settles O55: an unending interleaving, by as many of its events as are taken. -/
theorem noInterleavingAltersARun : Obligations.NoInterleavingAltersARun := by
  intro f k n s t follows noReset inProgress hrun
  have events := upcoming_of_follows f follows n
  have noReset' : Event.reset ∉ upcoming f n s := by
    rw [events]
    simpa using noReset
  have := run_of_interleaving f (s := s) (a := { s with later := .machine }) ⟨follows.1, rfl⟩ rfl noReset'
    inProgress hrun
  rwa [events] at this

/-- Settles O38: START makes the two states alike but for what a machine's step neither reads nor writes. -/
theorem runsAreDeterminedByTheirInputs : Obligations.RunsAreDeterminedByTheirInputs := by
  intro n s s' t hs hs' valid valid' cells A B C limit events events' later later' hrun
  have started (u : State) (hu : u.runState ≠ .running) (validU : u.decCode = .valid)
      (eventsU : u.events = [.write 0x00 3]) :
      run (n + 1) u = run n (startRun (accept { u with events := [] })) := by
    rw [run_write n _ _ u [] eventsU, hostWrite_ctrl (s := { u with events := [] }) hu,
      ctrlWrite_start (by decide), startCommand_of_valid (s := { u with events := [] }) validU]
  rw [started s hs valid events] at hrun
  have alike : startRun (accept { s' with events := [] }) =
      withHost (startRun (accept { s' with events := [] })) (startRun (accept { s with events := [] })) := by
    simp only [withHost, startRun, accept, cells, A, B, C, limit, valid, valid']
  have hrun' := run_withHost (s := startRun (accept { s with events := [] }))
    (u := startRun (accept { s' with events := [] })) ⟨rfl, later⟩ ⟨rfl, later'⟩ hrun
  rw [← alike] at hrun'
  exact ⟨_, (started s' hs' valid' events').trans hrun', rfl, rfl, rfl, rfl, rfl, rfl, rfl, rfl, rfl, rfl⟩

end Sys2Proof.Machine
end

section
/-! SUPPORT. Single steps and runs: a stopped machine, a fetch from two good cells, a run that a limit ends, and a
jump to its own index (40_execution_cycle.md R112 to R120). -/

namespace Sys2Proof

/-- Two good cells whose word decodes are the instruction of their pair (30_encoding.md R84). -/
theorem insnAt_of_good_cells {cells : List Cell} {k : Nat} {o r : Raw} {i : Instr}
    (opcode : cells[2 * k]? = some ⟨o, false⟩) (operand : cells[2 * k + 1]? = some ⟨r, false⟩)
    (decodes : decodeWord (o ++ r) = .ok i) : insnAt cells k = some i := by
  have pair : cellPair cells k = some (⟨o, false⟩, ⟨r, false⟩) := by rw [cellPair, opcode, operand]
  rw [decodeWord_append] at decodes
  rw [insnAt_of_cellPair pair, decodePair_of_good rfl rfl, raw_hardware, raw_hardware, decodes]
  rfl

namespace Machine

variable {P : Params} {s t : State P}

theorem machineStep_of_stopped (stopped : s.runState ≠ .running) : machineStep s = .next s := if_neg stopped

/-! A run with a limit -/

theorem Completes.stepLimit {i : Instr} (h : Completes i s t) : t.stepLimit = s.stepLimit := by
  cases h <;> simp

/-- The end of a limited run (40_execution_cycle.md R114). -/
def StoppedWithin (limit : StepWord P) (t : State P) : Prop :=
  t.runState ≠ .running ∧ t.steps.toNat ≤ limit.toNat ∧
    (t.runState = .limit → t.steps = limit ∧ t.faultCause = .none)

/-- A limited run stops, or has executed one instruction more of those the limit leaves. -/
theorem Inv.machineStep_limited (h : Inv s) (legal : P.Legal) (running : s.runState = .running)
    (limited : s.stepLimit ≠ 0) : ∃ t, machineStep s = .next t ∧ (StoppedWithin s.stepLimit t ∨
      (Inv t ∧ t.runState = .running ∧ t.stepLimit = s.stepLimit ∧ s.steps.toNat < s.stepLimit.toNat ∧
        t.steps.toNat = s.steps.toNat + 1)) := by
  have within := h.withinLimit running limited
  have noFault : s.faultCause = .none := h.faultCause_eq_none (by simp [running])
  obtain ⟨t, step⟩ := h.machineStep_next
  refine ⟨t, step, ?_⟩
  have inv := h.after_machineStep legal step
  rcases machineStep_cases s with ⟨stopped, -⟩ | ⟨-, -, e⟩ | ⟨-, -, -, reached, e⟩ |
    ⟨-, -, below, ⟨i, -, e⟩ | ⟨f, -, e⟩⟩
  · exact absurd running stopped
  · cases step.symm.trans e
    exact .inl ⟨nofun, within, nofun⟩
  · cases step.symm.trans e
    exact .inl ⟨nofun, within, fun _ => ⟨reached, noFault⟩⟩
  · rcases execAt_inv (e.symm.trans step) with ⟨-, completes⟩ | ⟨c, -, rfl⟩
    · have notReached : s.steps.toNat ≠ s.stepLimit.toNat := mt BitVec.eq_of_toNat_eq (below.resolve_left limited)
      have := s.stepLimit.isLt
      refine .inr ⟨inv, completes.record.1.trans running, completes.stepLimit, by omega, ?_⟩
      rw [completes.steps, toNat_succ_of_lt (by omega)]
    · exact .inl ⟨nofun, within, nofun⟩
  · cases step.symm.trans e

/-- A machine that moves alone and stops at its next step is there after any number of steps but none. -/
theorem run_succ_of_stop {s t : State} (alone : s.Alone) (move : machineStep s = .next t)
    (stopped : t.runState ≠ .running) (n : Nat) : run (n + 1) s = .next t := by
  rw [run_succ n s t (by rwa [step_of_alone alone]), run_stopped n t (alone_of_machineStep alone move) stopped]

theorem Inv.run_limited {s : State} (h : Inv s) (running : s.runState = .running) (alone : s.Alone)
    (limited : s.stepLimit ≠ 0) {n : Nat} (left : s.stepLimit.toNat - s.steps.toNat ≤ n) :
    ∃ t, run (n + 1) s = .next t ∧ StoppedWithin s.stepLimit t := by
  induction n generalizing s with
  | zero =>
    obtain ⟨t, move, stopped | ⟨-, -, -, room, -⟩⟩ := h.machineStep_limited hardware_legal running limited
    · exact ⟨t, run_succ_of_stop alone move stopped.1 0, stopped⟩
    · omega
  | succ n ih =>
    obtain ⟨t, move, stopped | ⟨inv, runs, limit, -, grown⟩⟩ := h.machineStep_limited hardware_legal running limited
    · exact ⟨t, run_succ_of_stop alone move stopped.1 (n + 1), stopped⟩
    · rw [run_succ _ s t (by rwa [step_of_alone alone]), ← limit]
      exact ih inv runs (alone_of_machineStep alone move) (by rwa [limit]) (by rw [limit]; omega)

/-! A jump to its own index -/

/-- In a run without a limit the instruction at `pc` is a jump to `pc` that is taken. -/
structure JumpsToItself (raw : Raw) (s : State P) : Prop where
  running : s.runState = .running
  valid : s.decCode = .valid
  noLimit : s.stepLimit = 0
  nonzero : s.A ≠ 0
  target : raw.toNat = 2 * s.pc.toNat
  insn : insnAt s.cells s.pc.toNat = some (.jumpIfANonZero raw)

theorem jumpTarget_of_even {raw : Raw} {pc : Pc P} (h : raw.toNat = 2 * pc.toNat) : jumpTarget raw = pc := by
  rw [jumpTarget, h, Nat.mul_div_cancel_left _ (by decide), BitVec.ofNat_toNat, BitVec.setWidth_eq]

theorem JumpsToItself.machineStep {raw : Raw} (h : JumpsToItself raw s) :
    machineStep s = .next { s with steps := s.steps + 1 } := by
  obtain ⟨running, valid, noLimit, nonzero, target, insn⟩ := h
  have even : raw.toNat % 2 = 0 := by omega
  have jumped : execAt (.jumpIfANonZero raw) s = .next (complete (jumpTarget raw) s) := execJump_of_even nonzero even
  rw [machineStep_of_insn running (lt_of_insnAt insn) (.inl noLimit) valid insn, jumped, jumpTarget_of_even target]
  rfl

theorem JumpsToItself.of_run_fields {raw : Raw} (h : JumpsToItself raw s) (n : StepWord P) (rejected : Bool)
    (later : Later) (read : Option (HostWord P)) :
    JumpsToItself raw { s with steps := n, cmdRejected := rejected, later := later, readData := read } :=
  ⟨h.running, h.valid, h.noLimit, h.nonzero, h.target, h.insn⟩

/-- Whatever the event, reset aside, the run stays at its jump. -/
theorem JumpsToItself.takeEvent {raw : Raw} (h : JumpsToItself raw s) {e : Event P} (noReset : e ≠ .reset) :
    ∃ rejected read, takeEvent e s = .next { s with
      steps := s.steps + BitVec.ofNat P.stepW (if e = .machine then 1 else 0)
      cmdRejected := rejected, readData := read } := by
  cases e with
  | machine => exact ⟨s.cmdRejected, s.readData, h.machineStep⟩
  | read addr => exact ⟨s.cmdRejected, some (hostRead addr s), by simp [Machine.takeEvent, hostReadEvent]⟩
  | write addr w =>
    exact ⟨true, s.readData, by simp [Machine.takeEvent, hostWrite_running addr w s h.running, reject]⟩
  | reset => exact absurd rfl noReset

theorem add_ofNat_add_ofNat {w : Nat} (x : BitVec w) (m n : Nat) :
    x + BitVec.ofNat w m + BitVec.ofNat w n = x + BitVec.ofNat w (m + n) := by
  rw [BitVec.ofNat_add, BitVec.add_assoc]

theorem JumpsToItself.run {raw : Raw} {s : State} (h : JumpsToItself raw s) (alone : s.Alone) (n : Nat) :
    run n s = .next { s with steps := s.steps + BitVec.ofNat 64 n } := by
  induction n generalizing s with
  | zero => simp
  | succ n ih =>
    have step : step s = .next { s with steps := s.steps + 1 } := by rw [step_of_alone alone, h.machineStep]
    have steps : s.steps + 1 + BitVec.ofNat 64 n = s.steps + BitVec.ofNat 64 (n + 1) := by
      rw [Nat.add_comm n 1]; exact add_ofNat_add_ofNat s.steps 1 n
    rw [run_succ n _ _ step, ih (s := { s with steps := s.steps + 1 }) (h.of_run_fields _ _ _ _) alone, ← steps]

/-! An unending interleaving -/

/-- A step under an unending interleaving takes the event whose turn it is and moves on to the next. -/
theorem stepUnder_follows {f : Nat → Event P} {k : Nat} (follows : s.Follows k) (step : stepUnder f s = .next t) :
    takeEvent (f k) { s with later := .schedule (k + 1) } = .next t ∧ t.Follows (k + 1) := by
  rw [stepUnder_schedule f s k follows.1 follows.2] at step
  obtain ⟨events, later⟩ := takeEvent_schedule _ _ _ step
  exact ⟨step, events.trans follows.1, later⟩

theorem runUnder_follows {f : Nat → Event P} {k n : Nat} (follows : s.Follows k)
    (hrun : runUnder f (n + 1) s = .next t) : ∃ u, runUnder f n s = .next u ∧ u.Follows (k + n) ∧
      takeEvent (f (k + n)) { u with later := .schedule (k + n + 1) } = .next t := by
  induction n generalizing s k with
  | zero =>
    obtain ⟨s', step, rest⟩ := runUnder_succ_inv f 0 s t hrun
    cases rest
    exact ⟨s, rfl, follows, (stepUnder_follows follows step).1⟩
  | succ n ih =>
    obtain ⟨s', step, rest⟩ := runUnder_succ_inv f (n + 1) s t hrun
    obtain ⟨u, hu, followsU, last⟩ := ih (stepUnder_follows follows step).2 rest
    rw [show k + 1 + n = k + (n + 1) by omega] at followsU last
    exact ⟨u, by rwa [runUnder_succ f n s s' step], followsU, last⟩

theorem JumpsToItself.runUnder {raw : Raw} (h : JumpsToItself raw s) (f : Nat → Event P) {k n : Nat}
    (follows : s.Follows k) (noReset : ∀ m < n, f (k + m) ≠ .reset) :
    ∃ t, runUnder f n s = .next t ∧ t.Follows (k + n) ∧ t.runState = .running ∧ t.pc = s.pc ∧ t.A = s.A ∧
      t.B = s.B ∧ t.C = s.C ∧ t.out = s.out ∧ t.cells = s.cells ∧
      t.steps = s.steps + BitVec.ofNat P.stepW (machineMoves f k n) := by
  induction n generalizing s k with
  | zero => exact ⟨s, rfl, follows, h.running, rfl, rfl, rfl, rfl, rfl, rfl, by simp⟩
  | succ n ih =>
    have taken := h.of_run_fields s.steps s.cmdRejected (.schedule (k + 1)) s.readData
    obtain ⟨rejected, read, step⟩ := taken.takeEvent (e := f k) (noReset 0 (by omega))
    rw [← stepUnder_schedule f s k follows.1 follows.2] at step
    have noReset' : ∀ m < n, f (k + 1 + m) ≠ .reset := fun m hm => by
      rw [Nat.add_assoc, Nat.add_comm 1 m]; exact noReset (m + 1) (by omega)
    obtain ⟨t, hrun, followsT, runs, pc, A, B, C, out, cells, steps⟩ :=
      ih (taken.of_run_fields (s.steps + BitVec.ofNat P.stepW (if f k = .machine then 1 else 0)) rejected _ read)
        (stepUnder_follows follows step).2 noReset'
    refine ⟨t, by rw [runUnder_succ f n s _ step, hrun], by rwa [Nat.add_comm n 1, ← Nat.add_assoc], runs, pc, A, B,
      C, out, cells, ?_⟩
    rw [steps, machineMoves_succ]
    exact add_ofNat_add_ofNat s.steps _ _

end Machine
end Sys2Proof
end

section
/-! Single steps, limited runs and endless ones (20_memory.md R66; 40_execution_cycle.md R112 to R120;
60_exceptions.md R188). -/

namespace Sys2Proof.Machine

/-- Settles O40: by induction on the instructions that the limit leaves. -/
theorem aLimitedRunStops : Obligations.ALimitedRunStops :=
  fun _ h running alone limited => h.run_limited running alone limited (Nat.le_refl _)

/-- Settles O39: by induction on the steps, of which each is the jump. -/
theorem aJumpToItselfRunsForever : Obligations.AJumpToItselfRunsForever :=
  fun n _ _ running alone valid noLimit nonzero target insn =>
    JumpsToItself.run ⟨running, valid, noLimit, nonzero, target, insn⟩ alone n

/-- Settles O56: by induction on the events, of which none leaves the jump. -/
theorem anEndlessRunMayBePolledForever : Obligations.AnEndlessRunMayBePolledForever :=
  fun f _ _ _ _ running follows valid noLimit nonzero target insn noReset =>
    JumpsToItself.runUnder ⟨running, valid, noLimit, nonzero, target, insn⟩ f follows noReset

/-- Settles O54: by induction on the steps; none stops under the invariant. -/
theorem everyInterleavingIsARun : Obligations.EveryInterleavingIsARun :=
  ⟨fun _ _ _ _ _ _ follows hrun => runUnder_follows follows hrun,
    fun _ legal f n _ h => h.runUnder_next legal f n, fun _ => rfl⟩

/-- Settles O34: the three forms of the schedule lead to the machine's step, in states of one program. -/
theorem stepRunsTheDecodedInstruction : Obligations.StepRunsTheDecodedInstruction := by
  intro s o r i running valid below opcode operand decodes
  have insn := insnAt_of_good_cells opcode operand decodes
  have move (es : List Event) (l : Later) : machineStep { s with events := es, later := l } =
      exec i { s with events := es, later := l } := by
    rw [exec_eq_execAt]
    exact machineStep_of_insn (s := { s with events := es, later := l }) running (lt_of_insnAt insn) below valid insn
  refine ⟨fun alone => ?alone, fun es listed => ?listed, fun f n follows event => ?unending⟩
  case alone => rw [step_of_alone alone]; exact move s.events s.later
  case listed => rw [step_cons s _ es listed]; exact move es s.later
  case unending => rw [stepUnder_schedule f s n follows.1 follows.2, event]; exact move s.events _

/-- Settles O35: the three forms of the schedule lead to the machine's step, which is none. -/
theorem aStoppedMachineHoldsItsState : Obligations.AStoppedMachineHoldsItsState := by
  intro s stopped
  refine ⟨fun alone => ?alone, fun es listed => ?listed, fun f n follows event => ?unending⟩
  case alone => rw [step_of_alone alone, machineStep_of_stopped stopped]
  case listed =>
    rw [step_cons s _ es listed]
    exact machineStep_of_stopped (s := { s with events := es }) stopped
  case unending =>
    rw [stepUnder_schedule f s n follows.1 follows.2, event]
    exact machineStep_of_stopped (s := { s with later := .schedule (n + 1) }) stopped

/-- Settles O36: the step takes the access, from the list or from the unending interleaving. -/
theorem hostAccessesAreAtomicSteps : Obligations.HostAccessesAreAtomicSteps := by
  intro s es addr w
  refine ⟨step_cons s _ es, step_cons s _ es, fun f n follows => ?unending⟩
  case unending =>
    rw [stepUnder_schedule f s n follows.1 follows.2]
    exact ⟨fun event => by rw [event]; rfl, fun event => by rw [event]; rfl⟩

end Sys2Proof.Machine
end

section
/-! SUPPORT. Host reads and writes that the sections above do not cover: the other commands, the registers and the
counts (10_state.md R41 to R52), and the boot sequence write by write (70_reset_and_hazards.md R192). -/

namespace Sys2Proof.Machine

variable {P : Params}

/-! `CTRL` (10_state.md R41) -/

theorem ctrlWrite_nop {w : HostWord P} (hw : w.extractLsb' 0 4 = 0) (s : State P) : ctrlWrite w s = accept s := by
  rw [ctrlWrite, hw]; rfl

theorem ctrlWrite_unknown {w : HostWord P} (hw : 4 ≤ (w.extractLsb' 0 4).toNat) (s : State P) :
    ctrlWrite w s = reject s := by
  unfold ctrlWrite
  split
  case h_5 => rfl
  all_goals omega

/-- The bits above the command are ignored. -/
theorem ctrlWrite_congr {w w' : HostWord P} (h : w'.extractLsb' 0 4 = w.extractLsb' 0 4) (s : State P) :
    ctrlWrite w' s = ctrlWrite w s := by
  rw [ctrlWrite, h, ← ctrlWrite]

/-! The registers and `OUT_INDEX` on this hardware (10_state.md R47, R50, R51) -/

section
variable {s : State} (stopped : s.runState ≠ .running) (w : HostWord)
include stopped

theorem hostWrite_regA : hostWrite 0x06 w s = { s with A := w } :=
  (if_neg stopped).trans (congrArg (fun a => { s with A := a }) (regOfHost_hardware w))

theorem hostWrite_regB : hostWrite 0x07 w s = { s with B := w } :=
  (if_neg stopped).trans (congrArg (fun b => { s with B := b }) (regOfHost_hardware w))

theorem hostWrite_regC : hostWrite 0x08 w s = { s with C := w } :=
  (if_neg stopped).trans (congrArg (fun c => { s with C := c }) (regOfHost_hardware w))

theorem hostWrite_outIndex : hostWrite 0x0B w s = { s with outIndex := w.extractLsb' 0 16 } :=
  (if_neg stopped).trans
    (congrArg (fun i => { s with outIndex := i }) (BitVec.setWidth_eq_extractLsb' (by decide)))

theorem hostWrite_stepLimit : hostWrite 0x0E w s = { s with stepLimit := w } :=
  (if_neg stopped).trans (congrArg (fun l => { s with stepLimit := l }) (BitVec.setWidth_eq (n := 64) w))

end

/-! `OUT_DATA` (10_state.md R50) -/

theorem outData_of_lt {s : State P} (h : s.outIndex.toNat < s.out.length) :
    outData s = (s.out[s.outIndex.toNat]).setWidth P.hostW := by
  rw [outData, List.getElem?_eq_getElem h]

theorem outData_of_ge {s : State P} (h : s.out.length ≤ s.outIndex.toNat) : outData s = 0 := by
  rw [outData, List.getElem?_eq_none h]

/-! `PROG_DATA` (10_state.md R43) -/

theorem cellOf_value {w : HostWord P} (hw : 3 ≤ P.cellW) (small : w.toNat ≤ 7) :
    (cellOf w).value.toNat = w.toNat ∧ (cellOf w).bad = false := by
  have := eight_le_two_pow hw
  rw [cellOf_of_le small]
  exact ⟨(BitVec.toNat_setWidth _ _).trans (Nat.mod_eq_of_lt (by omega)), rfl⟩

theorem cellOf_hardware (w : HostWord) :
    cellOf w = if w.toNat ≤ 7 then ⟨w.extractLsb' 0 3, false⟩ else ⟨0, true⟩ := by
  rw [cellOf, BitVec.setWidth_eq_extractLsb' (by decide)]

/-! The boot sequence (70_reset_and_hazards.md R192) -/

/-- A VALID decode on this hardware has index 0 (30_encoding.md R96). -/
theorem decodeProgram_valid_index {cells : List Cell} (h : (decodeProgram false cells).1 = .valid) :
    decodeProgram false cells = (.valid, 0) := by
  obtain ⟨-, -, scan⟩ := decodeProgram_valid h
  obtain ⟨p, wellFormed, rfl⟩ := encodeProgram_of_scan_valid 0 cells scan
  exact decodeProgram_encodeProgram (by decide) wellFormed

/-- A scheduled host write, by its effect. -/
theorem run_write_effect {s t : State} {addr : Nat} {w : HostWord} {es : List Event} (n : Nat)
    (listed : s.events = .write addr w :: es) (effect : hostWrite addr w { s with events := es } = t) :
    run (n + 1) s = run n t := by
  rw [run_write n addr w s es listed, effect]

/-- The `PROG_DATA` writes, as long as the store has room. -/
theorem run_progData (words : List HostWord) {s : State} {es : List Event} (stopped : s.runState ≠ .running)
    (code : s.decCode = .notDecoded) (idx : s.decIdx = 0) (listed : s.events = words.map (.write 0x02) ++ es)
    (room : s.progLen + words.length ≤ 64) :
    run words.length s = .next { s with cells := s.cells ++ words.map cellOf, events := es } := by
  induction words generalizing s with
  | nil => rw [List.map_nil, List.append_nil, ← show s.events = es from listed]; rfl
  | cons w words ih =>
    rw [List.length_cons] at room
    have stored (t : State) (ht : t.runState ≠ .running) (full : t.progLen < 64) (code : t.decCode = .notDecoded)
        (idx : t.decIdx = 0) : hostWrite 0x02 w t = { t with cells := t.cells ++ [cellOf w] } := by
      rw [hostWrite_progData ht, progData_of_room full, ← code, ← idx]
    have roomRest : (s.cells ++ [cellOf w]).length + words.length ≤ 64 := by
      rw [List.length_append, List.length_singleton, Nat.add_assoc, Nat.add_comm 1]; exact room
    rw [List.length_cons,
      run_write_effect (es := words.map (.write 0x02) ++ es) _ listed
        (stored _ (by exact stopped) (by show s.progLen < 64; omega) (by exact code) (by exact idx)),
      ih (by exact stopped) (by exact code) (by exact idx) rfl roomRest, List.append_assoc]
    rfl

/-- Steps 1 to 3: the store holds the program's cells, decoded. -/
theorem run_loadEvents (program : List HostWord) {s : State} {es : List Event} (stopped : s.runState ≠ .running)
    (listed : s.events = loadEvents program ++ es) (fits : program.length ≤ 64) :
    run (program.length + 2) s = .next { s with
      cells := program.map cellOf, loadOvf := false, cmdRejected := false, events := es,
      decCode := (decodeProgram false (program.map cellOf : List Cell)).1,
      decIdx := (decodeProgram false (program.map cellOf : List Cell)).2 } := by
  have events : s.events = .write 0x00 1 :: (program.map (.write 0x02) ++ .write 0x00 2 :: es) := by
    rw [listed, loadEvents, List.cons_append, List.append_assoc]; rfl
  have clear (t : State) (ht : t.runState ≠ .running) : hostWrite 0x00 1 t = progClear (accept t) := by
    rw [hostWrite_ctrl ht, ctrlWrite_progClear (by decide)]
  have data (t : State) (ht : t.runState ≠ .running)
      (listedT : t.events = (program.map (.write 0x02) : List Event) ++ .write 0x00 2 :: es) :=
    run_progData program (s := progClear (accept t)) ht rfl rfl listedT (by show 0 + program.length ≤ 64; omega)
  rw [run_write_effect (program.length + 1) events (clear _ (by exact stopped)),
    run_add program.length 1 _ _ (data _ (by exact stopped) rfl)]
  exact run_write_effect 0 rfl (hostWrite_decode (by exact stopped) (by decide) rfl)

/-- Steps 4 to 6: the limit and the registers are set, and START is issued. -/
theorem run_startEvents {limit a b c : HostWord} {s : State} {es : List Event} (stopped : s.runState ≠ .running)
    (listed : s.events = startEvents limit a b c ++ es) :
    run 5 s = .next (startCommand { s with stepLimit := limit, A := a, B := b, C := c, events := es }) :=
  calc run 5 s
    _ = run 4 { s with stepLimit := limit, events := _ } :=
        run_write_effect 4 listed (hostWrite_stepLimit (by exact stopped) limit)
    _ = run 3 { s with stepLimit := limit, A := a, events := _ } :=
        run_write_effect 3 rfl (hostWrite_regA (by exact stopped) a)
    _ = run 2 { s with stepLimit := limit, A := a, B := b, events := _ } :=
        run_write_effect 2 rfl (hostWrite_regB (by exact stopped) b)
    _ = run 1 { s with stepLimit := limit, A := a, B := b, C := c, events := _ } :=
        run_write_effect 1 rfl (hostWrite_regC (by exact stopped) c)
    _ = .next (startCommand { s with stepLimit := limit, A := a, B := b, C := c, events := es }) :=
        run_write_effect 0 rfl ((hostWrite_ctrl (by exact stopped) 3).trans (ctrlWrite_start (by decide) _))

end Sys2Proof.Machine
end

section
/-! The boot sequence (70_reset_and_hazards.md R192), loading at any parameters (30_encoding.md R94, R100), and the
rest of the register map (10_state.md R41 to R53). -/

namespace Sys2Proof.Machine

/-- Settles O44: the load, then START from its decode status. -/
theorem theBootSequenceStartsTheRun : Obligations.TheBootSequenceStartsTheRun := by
  intro s program limit a b c es cells stopped listed fits hcells
  have cellsOf : program.map cellOf = cells := by
    rw [hcells]; exact List.map_congr_left fun w _ => cellOf_hardware w
  rw [List.append_assoc] at listed
  have load := run_loadEvents program stopped listed fits
  have start := (run_add _ 5 _ _ load).trans (run_startEvents stopped rfl)
  rw [cellsOf] at start
  refine ⟨fun valid => ?valid, fun invalid => ?invalid⟩
  case valid =>
    refine start.trans ?_
    rw [startCommand_of_valid valid, decodeProgram_valid_index valid]
    rfl
  case invalid =>
    refine ⟨_, start, ?_⟩
    rw [startCommand_of_not_valid invalid]
    exact ⟨rfl, rfl, rfl⟩

/-- Settles O53: the write by the room left and the cell by the value; an overflow is the first thing DECODE
reports. -/
theorem loadingAtEveryParameter : Obligations.LoadingAtEveryParameter := by
  intro P legal s w stopped
  rw [hostWrite_progData stopped]
  refine ⟨fun room => ⟨cellOf w, cellOf_value legal.cellHolds, ?bad, progData_of_room room w⟩,
    fun full => progData_of_full full.ge w, ?tooLong⟩
  case bad => intro large; rw [cellOf_of_gt large]; exact ⟨rfl, rfl⟩
  case tooLong =>
    intro overflow command
    have report : decodeProgram s.loadOvf s.cells = (.programTooLong, BitVec.ofNat 16 P.progCapRaw) := by
      rw [overflow, decodeProgram_overflow]
    rw [hostWrite_decode stopped command report]
    exact ⟨rfl, Nat.mod_eq_of_lt (Nat.lt_succ_of_le legal.progHigh)⟩

/-- Settles O14: NOP is an acceptance alone, and every unknown command a rejection. -/
theorem ctrlCommandField : Obligations.CtrlCommandField := by
  intro s w stopped
  rw [hostWrite_ctrl stopped]
  refine ⟨fun nop => ctrlWrite_nop nop s, fun unknown => ctrlWrite_unknown unknown s, fun w' same => ?_, rfl⟩
  rw [hostWrite_ctrl stopped, ctrlWrite_congr same]

/-- Settles O16: each value fits the host word, the counts since the stores are within their capacities. -/
theorem readOnlyRegistersRead : Obligations.ReadOnlyRegistersRead := by
  intro s stores
  obtain ⟨progCapacity, -, outCapacity⟩ := (Memory.wf_iff _ _).mp stores
  have progLen : s.progLen ≤ 64 := progCapacity
  have outCount : s.outCount ≤ 256 := outCapacity
  refine ⟨Nat.mod_eq_of_lt ?progFits, ?decCode, BitVec.toNat_setWidth_of_le (by decide),
    BitVec.toNat_setWidth_of_le (by decide), Nat.mod_eq_of_lt ?outFits, BitVec.setWidth_eq (n := 64) s.steps,
    ?faultCause, BitVec.toNat_setWidth_of_le (by decide), configWord_hardware⟩
  case progFits => show s.progLen < 2 ^ 64; omega
  case outFits => show s.outCount < 2 ^ 64; omega
  case decCode =>
    show zext 64 (decCodeBits s.decCode) = _
    cases s.decCode <;> rfl
  case faultCause =>
    show zext 64 s.faultCause.code = _
    cases s.faultCause <;> rfl

/-- Settles O17: a register and a host word have one width. -/
theorem hostSetsTheRegisters : Obligations.HostSetsTheRegisters :=
  fun s w => ⟨fun stopped => ⟨hostWrite_regA stopped w, hostWrite_regB stopped w, hostWrite_regC stopped w,
      hostWrite_stepLimit stopped w⟩,
    hostOfReg_hardware s.A, hostOfReg_hardware s.B, hostOfReg_hardware s.C, BitVec.setWidth_eq (n := 64) s.stepLimit⟩

/-- Settles O18: the entry by whether `OUT_INDEX` is below `OUT_COUNT`; a read records its answer alone. -/
theorem outDataReadsTheSelectedEntry : Obligations.OutDataReadsTheSelectedEntry :=
  fun _ => ⟨fun w stopped => hostWrite_outIndex stopped w, BitVec.toNat_setWidth_of_le (by decide),
    outData_of_lt, outData_of_ge, rfl, rfl⟩

end Sys2Proof.Machine
end

section
/-! SUPPORT. The assembler notation (30_encoding.md R102 to R105): how an operand of each kind is written and read,
what each mnemonic stands for, and that nothing ill formed is assembled. -/

namespace Sys2Proof.Machine

/-! Operands -/

/-- Each well-formed combo operand has a spelling. -/
theorem asmCombo_spelling {v : Operand} (h : v.wellFormed = true) :
    ∃ a : AsmOperand, ∀ mk : Operand → Instr, asmCombo mk a = some (mk v) := by
  cases v with
  | imm raw =>
    have small : raw.toNat ≤ 3 := of_decide_eq_true h
    exact ⟨.num raw.toNat, fun mk => by rw [asmCombo, if_pos small, BitVec.ofNat_toNat, BitVec.setWidth_eq]⟩
  | reg r => exact ⟨.reg r, fun mk => rfl⟩

theorem asmCombo_wellFormed {mk : Operand → Instr} (hmk : ∀ v, v.wellFormed = true → (mk v).WellFormed)
    {a : AsmOperand} {i : Instr} (h : asmCombo mk a = some i) : i.WellFormed := by
  cases a with
  | absent | label name => cases h
  | reg r => cases h; exact hmk _ rfl
  | num n =>
    obtain ⟨small, rfl⟩ : n ≤ 3 ∧ mk (.imm (BitVec.ofNat 3 n)) = i := by simpa [asmCombo] using h
    exact hmk _ (decide_eq_true ((Nat.mod_le _ _).trans small))

theorem asmLiteral_num (mk : Raw → Instr) (r : Raw) : asmLiteral mk (.num r.toNat) = some (mk r) := by
  rw [asmLiteral, if_pos (Nat.le_of_lt_succ r.isLt), BitVec.ofNat_toNat, BitVec.setWidth_eq]

theorem asmLiteral_wellFormed {mk : Raw → Instr} (hmk : ∀ r, (mk r).WellFormed) {a : AsmOperand} {i : Instr}
    (h : asmLiteral mk a = some i) : i.WellFormed := by
  cases a with
  | absent | label name | reg r => cases h
  | num n =>
    obtain ⟨-, rfl⟩ : n ≤ 7 ∧ mk (BitVec.ofNat 3 n) = i := by simpa [asmLiteral] using h
    exact hmk _

/-- A jump to a label is a jump to twice its index, an error past index 3 (R104). -/
theorem asmJumpTo_of_lookup {labels : List (String × Nat)} {name : String} {k : Nat}
    (h : labels.lookup name = some k) :
    asmJumpTo labels name = if k ≤ 3 then some (.jumpIfANonZero (BitVec.ofNat 3 (2 * k))) else none := by
  rw [asmJumpTo, h]

theorem asmJumpTo_wellFormed {labels : List (String × Nat)} {name : String} {i : Instr}
    (h : asmJumpTo labels name = some i) : i.WellFormed := by
  cases hk : labels.lookup name with
  | none => rw [asmJumpTo, hk] at h; cases h
  | some k =>
    obtain ⟨-, rfl⟩ : k ≤ 3 ∧ .jumpIfANonZero (BitVec.ofNat 3 (2 * k)) = i := by
      simpa [asmJumpTo_of_lookup hk] using h
    rfl

theorem asmJump_wellFormed {labels : List (String × Nat)} {a : AsmOperand} {i : Instr}
    (h : asmJump labels a = some i) : i.WellFormed := by
  cases a with
  | absent => cases h
  | num n => exact asmLiteral_wellFormed (mk := .jumpIfANonZero) (a := .num n) (fun _ => rfl) h
  | label name => exact asmJumpTo_wellFormed h
  | reg r => cases r <;> exact asmJumpTo_wellFormed h

theorem asmXorBWithC_wellFormed {a : AsmOperand} {i : Instr} (h : asmXorBWithC a = some i) : i.WellFormed := by
  cases a with
  | absent => cases h; rfl
  | num n => exact asmLiteral_wellFormed (mk := .xorBWithC) (a := .num n) (fun _ => rfl) h
  | label name | reg r => cases h

theorem asmNop_wellFormed {a : AsmOperand} {i : Instr} (h : asmNop a = some i) : i.WellFormed := by
  cases a with
  | absent => cases h; rfl
  | num n | label name | reg r => cases h

/-! Mnemonics (R85, R103, R104) -/

section
variable (labels : List (String × Nat)) (a : AsmOperand)

theorem asmInsn_shiftRightA : asmInsn labels "ShiftRightA" a = asmCombo .shiftRightA a ∧
    asmInsn labels "adv" a = asmCombo .shiftRightA a := ⟨rfl, rfl⟩

theorem asmInsn_xorImmediateIntoB : asmInsn labels "XorImmediateIntoB" a = asmLiteral .xorImmediateIntoB a ∧
    asmInsn labels "bxl" a = asmLiteral .xorImmediateIntoB a := ⟨rfl, rfl⟩

theorem asmInsn_truncateIntoB : asmInsn labels "TruncateIntoB" a = asmCombo .truncateIntoB a ∧
    asmInsn labels "bst" a = asmCombo .truncateIntoB a := ⟨rfl, rfl⟩

theorem asmInsn_jumpIfANonZero : asmInsn labels "JumpIfANonZero" a = asmJump labels a ∧
    asmInsn labels "jnz" a = asmJump labels a := ⟨rfl, rfl⟩

theorem asmInsn_xorBWithC : asmInsn labels "XorBWithC" a = asmXorBWithC a ∧
    asmInsn labels "bxc" a = asmXorBWithC a := ⟨rfl, rfl⟩

theorem asmInsn_emit : asmInsn labels "Emit" a = asmCombo .emit a ∧ asmInsn labels "out" a = asmCombo .emit a :=
  ⟨rfl, rfl⟩

theorem asmInsn_shiftRightB : asmInsn labels "ShiftRightB" a = asmCombo .shiftRightB a ∧
    asmInsn labels "bdv" a = asmCombo .shiftRightB a := ⟨rfl, rfl⟩

theorem asmInsn_shiftRightC : asmInsn labels "ShiftRightC" a = asmCombo .shiftRightC a ∧
    asmInsn labels "cdv" a = asmCombo .shiftRightC a := ⟨rfl, rfl⟩

end

/-- A line assembles under one of the mnemonics, by the reading of its operand kind. -/
theorem asmInsn_wellFormed {labels : List (String × Nat)} {mnemonic : String} {a : AsmOperand} {i : Instr}
    (h : asmInsn labels mnemonic a = some i) : i.WellFormed := by
  unfold asmInsn at h
  split at h
  · exact asmCombo_wellFormed (fun _ => id) h
  split at h
  · exact asmLiteral_wellFormed (fun _ => rfl) h
  split at h
  · exact asmCombo_wellFormed (fun _ => id) h
  split at h
  · exact asmJump_wellFormed h
  split at h
  · exact asmXorBWithC_wellFormed h
  split at h
  · exact asmCombo_wellFormed (fun _ => id) h
  split at h
  · exact asmCombo_wellFormed (fun _ => id) h
  split at h
  · exact asmCombo_wellFormed (fun _ => id) h
  split at h
  · exact asmNop_wellFormed h
  · cases h

theorem asmBody_wellFormed {labels : List (String × Nat)} {text : List AsmLine} {p : List Instr}
    (h : asmBody labels text = some p) : ∀ i ∈ p, i.WellFormed := by
  induction text generalizing p with
  | nil => cases h; simp
  | cons line text ih =>
    cases line with
    | label name => exact ih h
    | insn mnemonic a =>
      cases hi : asmInsn labels mnemonic a with
      | none => simp [asmBody, hi] at h
      | some i =>
        cases hp : asmBody labels text with
        | none => simp [asmBody, hi, hp] at h
        | some rest =>
          obtain rfl : i :: rest = p := by simpa [asmBody, hi, hp] using h
          exact List.forall_mem_cons.mpr ⟨asmInsn_wellFormed hi, ih hp⟩

/-! Integers (R105) -/

/-- An integer in the signed range is read back from its pattern. -/
theorem sint_bits {w : Nat} (hw : 0 < w) {n : Int} (h : InRange w n) : sint (bits w n) = n := by
  obtain ⟨low, high⟩ := h
  have half : (2 : Int) ^ w = 2 * 2 ^ (w - 1) := by
    rw [← pow_succ', Nat.sub_add_cancel hw]
  rw [sint, bits, BitVec.toInt_ofInt]
  apply Int.bmod_eq_of_le <;> push_cast <;> omega

end Sys2Proof.Machine
end

section
/-! The host notations (30_encoding.md R102 to R105). -/

namespace Sys2Proof.Machine

/-- Settles O10: the mnemonics by the operand kind, whose spelling is read back. -/
theorem everyInstructionHasAnAssemblyForm : Obligations.EveryInstructionHasAnAssemblyForm := by
  refine ⟨fun labels r => ?literal, fun labels v wellFormed => ?combo⟩
  case literal =>
    have literal (mk : Raw → Instr) := asmLiteral_num mk r
    obtain ⟨xor, bxl⟩ := asmInsn_xorImmediateIntoB labels (.num r.toNat)
    obtain ⟨jump, jnz⟩ := asmInsn_jumpIfANonZero labels (.num r.toNat)
    obtain ⟨xorC, bxc⟩ := asmInsn_xorBWithC labels (.num r.toNat)
    exact ⟨xor.trans (literal _), bxl.trans (literal _), jump.trans (literal _), jnz.trans (literal _),
      xorC.trans (literal _), bxc.trans (literal _)⟩
  case combo =>
    obtain ⟨a, spelled⟩ := asmCombo_spelling wellFormed
    obtain ⟨shiftA, adv⟩ := asmInsn_shiftRightA labels a
    obtain ⟨truncate, bst⟩ := asmInsn_truncateIntoB labels a
    obtain ⟨emit, out⟩ := asmInsn_emit labels a
    obtain ⟨shiftB, bdv⟩ := asmInsn_shiftRightB labels a
    obtain ⟨shiftC, cdv⟩ := asmInsn_shiftRightC labels a
    exact ⟨a, shiftA.trans (spelled _), adv.trans (spelled _), truncate.trans (spelled _), bst.trans (spelled _),
      emit.trans (spelled _), out.trans (spelled _), shiftB.trans (spelled _), bdv.trans (spelled _),
      shiftC.trans (spelled _), cdv.trans (spelled _)⟩

/-- Settles O11: line by line. -/
theorem assembledProgramsAreWellFormed : Obligations.AssembledProgramsAreWellFormed := by
  intro text p h
  cases hl : asmLabels 0 text with
  | none => rw [assemble, hl] at h; cases h
  | some labels => rw [assemble, hl] at h; exact asmBody_wellFormed h

/-- Settles O12: a jump to a label by the bound on its index. -/
theorem pseudoInstructionsAssemble : Obligations.PseudoInstructionsAssemble := by
  refine ⟨fun _ => rfl, fun labels => (asmInsn_xorBWithC labels _).1, fun labels name k index => ?jump⟩
  case jump =>
    rw [(asmInsn_jumpIfANonZero labels _).1, asmJump, asmJumpTo_of_lookup index]
    exact ⟨fun low => ⟨_, if_pos low, Nat.mod_eq_of_lt (by omega)⟩, fun high => if_neg (by omega)⟩

/-- Settles O13: `intWord` asks for the range of both widths, which are one. -/
theorem hostIntegersInRangeHavePatterns : Obligations.HostIntegersInRangeHavePatterns := by
  intro n
  refine ⟨fun inside => ⟨bits 64 n, if_pos ⟨inside, inside⟩, sint_bits (by decide) inside⟩,
    fun outside => if_neg fun inside => ?_⟩
  obtain ⟨⟨low, high⟩, -⟩ : InRange 64 n ∧ InRange 64 n := inside
  omega

end Sys2Proof.Machine
end

section
/-! SUPPORT. The instructions' words that the sections above do not cover, and the next state of each instruction at
any parameters where it is not yet said (41_shift.md R132, R133; 42_bitwise.md R140, R142; 43_control.md R151). -/

namespace Sys2Proof

theorem decodeWord_shiftRightB (raw : Raw) :
    decodeWord (0b110#3 ++ raw) = withCombo .shiftRightB raw := decodeWord_append 0b110#3 raw

theorem decodeWord_shiftRightC (raw : Raw) :
    decodeWord (0b111#3 ++ raw) = withCombo .shiftRightC raw := decodeWord_append 0b111#3 raw

theorem decodeWord_xorImmediateIntoB (raw : Raw) :
    decodeWord (0b001#3 ++ raw) = .ok (.xorImmediateIntoB raw) := decodeWord_append 0b001#3 raw

theorem decodeWord_xorBWithC (raw : Raw) :
    decodeWord (0b100#3 ++ raw) = .ok (.xorBWithC raw) := decodeWord_append 0b100#3 raw

namespace Machine

variable {P : Params}

theorem toNat_jumpTarget (legal : P.Legal) (raw : Raw) : (jumpTarget raw : Pc P).toNat = raw.toNat / 2 := by
  have := legal.pcHoldsTarget
  have := raw.isLt
  rw [jumpTarget, BitVec.toNat_ofNat, Nat.mod_eq_of_lt (by omega)]

theorem exec_shiftRightB (v : Operand) (s : State) : exec (.shiftRightB v) s = shiftInto .B v s := rfl

theorem exec_shiftRightC (v : Operand) (s : State) : exec (.shiftRightC v) s = shiftInto .C v s := rfl

theorem exec_xorImmediateIntoB (raw : Raw) (s : State) :
    exec (.xorImmediateIntoB raw) s = writeB (s.B ^^^ literal raw) s := rfl

theorem exec_xorBWithC (raw : Raw) (s : State) : exec (.xorBWithC raw) s = writeB (s.B ^^^ s.C) s := rfl

theorem xor_xor_self {w : Nat} (a b : BitVec w) : a ^^^ b ^^^ b = a := by
  rw [BitVec.xor_assoc, BitVec.xor_self, BitVec.xor_zero]

end Machine
end Sys2Proof
end

section
/-! The shift and bitwise families (41_shift.md R130 to R134; 42_bitwise.md R140 to R143), and every instruction at any
parameters (00_scope.md R6). -/

namespace Sys2Proof.Machine

/-- Settles O21: the words by their combo operand, the next state by the sign of the amount. -/
theorem shiftRightBAndCMeaning : Obligations.ShiftRightBAndCMeaning := by
  refine ⟨fun raw v combo => ?decodes, fun v s => ?shifts⟩
  case decodes =>
    rw [decodeWord_shiftRightB, decodeWord_shiftRightC]
    exact ⟨withCombo_of_ok combo _, withCombo_of_ok combo _⟩
  case shifts =>
    rw [exec_shiftRightB, exec_shiftRightC]
    exact ⟨fun nonneg => ⟨shiftInto_of_nonneg .B nonneg, shiftInto_of_nonneg .C nonneg⟩,
      fun negative => ⟨shiftInto_of_neg .B negative, shiftInto_of_neg .C negative⟩⟩

/-- Settles O22: every law from the exact quotient, `shr_of_nonneg`, which fits by `tdiv_fits`. -/
theorem shiftFamilyLaws : Obligations.ShiftFamilyLaws := by
  intro n hn
  have wide : 2 ^ 64 ≤ 2 ^ n := Nat.pow_le_pow_right (by decide) hn
  have amount {k : Nat} (hk : k < 2 ^ 63) : sint (BitVec.ofNat n k) = k := sint_ofNat (by omega)
  have shift (a : BitVec n) {k : Nat} (hk : k < 2 ^ 63) :
      shr a (BitVec.ofNat n k) = some (bits n ((sint a).tdiv (2 ^ k))) := by
    rw [shr_of_nonneg _ _ (by rw [amount hk]; omega), amount hk, Int.toNat_natCast]
  refine ⟨fun a k nonneg hk => ?logical, fun a v nonneg => ?exactQuotient, fun a j k hjk => ?composes,
    fun a v q quotient => ?sign⟩
  case logical => rw [shift a (by omega), bits_tdiv_two_pow nonneg]
  case exactQuotient => exact ⟨_, shr_of_nonneg a v nonneg, tdiv_fits a _⟩
  case composes =>
    rw [shift a (by omega), Option.bind_some, shift _ (by omega), shift a hjk, tdiv_fits, tdiv_two_pow_add]
  case sign =>
    rcases Int.lt_or_le (sint v) 0 with negative | nonneg
    · rw [shr_of_neg a v negative] at quotient; cases quotient
    · rw [shr_of_nonneg a v nonneg] at quotient
      cases quotient
      rw [tdiv_fits]
      exact ⟨fun h => tdiv_two_pow_nonneg h _, fun h => tdiv_two_pow_nonpos h _⟩

/-- Settles O23: the word and the write of B by evaluation. -/
theorem xorImmediateIntoBMeaning : Obligations.XorImmediateIntoBMeaning :=
  fun raw s => ⟨decodeWord_xorImmediateIntoB raw, exec_xorImmediateIntoB raw s⟩

/-- Settles O25: the word and the write of B by evaluation. -/
theorem xorBWithCMeaning : Obligations.XorBWithCMeaning :=
  fun raw s => ⟨decodeWord_xorBWithC raw, exec_xorBWithC raw s⟩

/-- Settles O26: xor undoes itself, and three bits are at most 7. -/
theorem bitwiseFamilyLaws : Obligations.BitwiseFamilyLaws := by
  refine ⟨fun raw s => ⟨_, _, exec_xorImmediateIntoB raw s, exec_xorImmediateIntoB raw _, xor_xor_self _ _⟩,
    fun raw raw' s => ⟨_, _, exec_xorBWithC raw s, exec_xorBWithC raw' _, xor_xor_self _ _⟩,
    fun v s => ⟨_, exec_truncateIntoB v s, ?low⟩⟩
  case low =>
    show 0 ≤ sint (zext 64 (lowThree (resolve v s))) ∧ sint (zext 64 (lowThree (resolve v s))) ≤ 7
    have := (lowThree (resolve v s)).isLt
    rw [sint_zext_raw (by decide)]
    omega

/-- Settles O52: each instruction from the lemma about its meaning, the quotient, the target and the entry by their
values. -/
theorem theInstructionsAtEveryParameter : Obligations.TheInstructionsAtEveryParameter := by
  intro P legal v raw s
  have wide : 3 ≤ P.regW := by have := legal.reg; omega
  refine ⟨fun nonneg => ⟨quotient v s, tdiv_fits s.A _, shiftInto_of_nonneg .A nonneg, shiftInto_of_nonneg .B nonneg,
      shiftInto_of_nonneg .C nonneg⟩,
    fun negative => ⟨shiftInto_of_neg .A negative, shiftInto_of_neg .B negative, shiftInto_of_neg .C negative⟩,
    rfl, execTruncateIntoB_eq_mask wide v s, rfl, execJump_of_zero,
    fun nonzero even => ⟨jumpTarget raw, toNat_jumpTarget legal raw, execJump_of_even nonzero even⟩,
    execJump_of_odd,
    fun room => ⟨_, toNat_zext_lowThree wide legal.outHolds _, execEmit_of_room room⟩,
    fun full => execEmit_of_full full.ge⟩

end Sys2Proof.Machine
end

section
/-! SUPPORT. The simulation of the source's interpreter (40_execution_cycle.md R123): a state of a run read as a state
of the interpreter, one step of each, and the two runs side by side. -/

namespace Sys2Proof

/-! The interpreter -/

namespace Source

/-- What a result has emitted. -/
def Result.emitted : Result → List Nat
  | .output o | .invalidJumpTarget o | .negativeShift o | .unfinished o => o

/-- The state with its counter advanced, in which an instruction is applied. -/
abbrev State.advance (st : State) : State := { st with pc := st.pc + 1 }

section
variable {p : List Instr} {st st' : State} {i : Instr} (fuel : Nat)

theorem execute_of_none (h : p[st.pc]? = none) : execute p (fuel + 1) st = .output st.out := by
  rw [execute, h]

theorem execute_of_next (h : p[st.pc]? = some i) (applied : apply i st.advance = .next st') :
    execute p (fuel + 1) st = execute p fuel st' := by
  rw [execute, h]; simp only [applied]

theorem execute_of_invalidJumpTarget (h : p[st.pc]? = some i) (applied : apply i st.advance = .invalidJumpTarget) :
    execute p (fuel + 1) st = .invalidJumpTarget st.out := by
  rw [execute, h]; simp only [applied]

theorem execute_of_negativeShift (h : p[st.pc]? = some i) (applied : apply i st.advance = .negativeShift) :
    execute p (fuel + 1) st = .negativeShift st.out := by
  rw [execute, h]; simp only [applied]

end

theorem apply_out {i : Instr} {st st' : State} (h : apply i st = .next st') : st.out <+: st'.out := by
  cases i with
  | shiftRightA v | shiftRightB v | shiftRightC v =>
    simp only [apply] at h
    split at h <;> cases h
    exact List.prefix_rfl
  | jumpIfANonZero raw =>
    simp only [apply] at h
    split at h
    · cases h; exact List.prefix_rfl
    · split at h <;> cases h
      exact List.prefix_rfl
  | xorImmediateIntoB raw | truncateIntoB v | xorBWithC raw => cases h; exact List.prefix_rfl
  | emit v => cases h; exact List.prefix_append _ _

/-- What was emitted before is emitted still. -/
theorem out_prefix_execute (p : List Instr) (fuel : Nat) (st : State) : st.out <+: (execute p fuel st).emitted := by
  induction fuel generalizing st with
  | zero => exact List.prefix_rfl
  | succ fuel ih =>
    cases hi : p[st.pc]? with
    | none => rw [execute_of_none fuel hi]; exact List.prefix_rfl
    | some i =>
      cases applied : apply i st.advance with
      | next st' =>
        rw [execute_of_next fuel hi applied]
        exact (apply_out applied).trans (ih st')
      | invalidJumpTarget => rw [execute_of_invalidJumpTarget fuel hi applied]; exact List.prefix_rfl
      | negativeShift => rw [execute_of_negativeShift fuel hi applied]; exact List.prefix_rfl

end Source

namespace Machine

/-! One instruction on both sides -/

/-- A state of the machine as the interpreter sees it. -/
def sourceOf (s : State) : Source.State := ⟨sint s.A, sint s.B, sint s.C, s.pc.toNat, s.out.map BitVec.toNat⟩

theorem value_sourceOf (v : Operand) (s : State) (pc : Nat) :
    Source.value v { sourceOf s with pc := pc } = sint (resolve v s) := by
  cases v with
  | imm raw => exact (sint_zext_raw (by decide) raw).symm
  | reg r => cases r <;> rfl

/-- The exact quotient is what the shift writes. -/
theorem shifted_sourceOf (v : Operand) (s : State) (pc : Nat) :
    Source.shifted v { sourceOf s with pc := pc } = sint (quotient v s) := by
  rw [Source.shifted, value_sourceOf]
  exact (tdiv_fits s.A _).symm

theorem sint_eq_zero_iff {w : Nat} (v : BitVec w) : sint v = 0 ↔ v = 0 :=
  ⟨fun h => BitVec.toInt_inj.mp (h.trans BitVec.toInt_zero.symm), fun h => h ▸ BitVec.toInt_zero⟩

section
variable {i : Instr} {s t : State}

/-- Where the instruction completes, the interpreter's next state is that of the machine. -/
theorem apply_of_completes (inside : s.pc.toNat < 63) (noFault : faultOf i s = none) (h : Completes i s t) :
    Source.apply i (sourceOf s).advance = .next (sourceOf t) := by
  have advanced : s.pc.toNat + 1 = (npc s).toNat := (toNat_succ_of_lt (show _ < 2 ^ 6 by omega)).symm
  have state : (sourceOf s).advance = { sourceOf s with pc := (npc s).toNat } := by rw [← advanced]; rfl
  rw [state]
  cases h with
  | writes r x write =>
    cases i with
    | shiftRightA v | shiftRightB v | shiftRightC v =>
      cases write
      have nonneg : ¬sint (resolve v s) < 0 := by simpa [faultOf] using noFault
      rw [Source.apply, value_sourceOf, if_neg nonneg, shifted_sourceOf]
      rfl
    | xorImmediateIntoB raw =>
      cases write
      rw [Source.apply, ← sint_zext_raw (w := 64) (by decide) raw]
      exact congrArg (fun b => Source.StepResult.next { sourceOf s with pc := (npc s).toNat, b := b })
        (sint_xor s.B (literal raw)).symm
    | xorBWithC raw =>
      cases write
      exact congrArg (fun b => Source.StepResult.next { sourceOf s with pc := (npc s).toNat, b := b })
        (sint_xor s.B s.C).symm
    | truncateIntoB v =>
      cases write
      rw [Source.apply, value_sourceOf, sint_emod_eight (by decide), ← sint_zext_raw (w := 64) (by decide)]
      rfl
    | jumpIfANonZero raw | emit v => cases write
  | goesOn raw jump zero =>
    subst jump
    exact if_pos ((sint_eq_zero_iff s.A).mpr zero)
  | jumps raw jump nonzero even =>
    subst jump
    have target : (jumpTarget raw : Pc).toNat = raw.toNat / 2 := toNat_jumpTarget hardware_legal raw
    refine (if_neg (mt (sint_eq_zero_iff s.A).mp nonzero)).trans ((if_neg (by omega)).trans ?_)
    rw [← target]; rfl
  | appends v emit room =>
    subst emit
    have entry : (sint (resolve v s) % 8).toNat = (zext 3 (lowThree (resolve v s))).toNat := by
      rw [sint_emod_eight (by decide), Int.toNat_natCast]
      exact congrArg BitVec.toNat (BitVec.setWidth_eq _).symm
    rw [Source.apply, value_sourceOf, entry]
    simp [sourceOf]

/-- What the interpreter does where the instruction takes a fault: it ends the same way, or emits past the
buffer. -/
theorem apply_of_faultOf {c : FaultCause} (h : faultOf i s = some c) :
    (c = .negativeShift ∧ Source.apply i (sourceOf s).advance = .negativeShift) ∨
    (c = .invalidJumpTarget ∧ Source.apply i (sourceOf s).advance = .invalidJumpTarget) ∨
    (c = .outputOverflow ∧ 256 ≤ s.outCount ∧ ∃ st x, Source.apply i (sourceOf s).advance = .next st ∧
      st.out = (sourceOf s).out ++ [x]) := by
  rcases faultOf_inv h with ⟨rfl, v, shift, negative⟩ | ⟨rfl, raw, rfl, nonzero, odd⟩ | ⟨rfl, v, rfl, full⟩
  · have below : Source.value v (sourceOf s).advance < 0 := by rwa [value_sourceOf]
    refine .inl ⟨rfl, ?_⟩
    rcases shift with rfl | rfl | rfl <;> exact if_pos below
  · exact .inr (.inl ⟨rfl, (if_neg (mt (sint_eq_zero_iff s.A).mp nonzero)).trans (if_pos odd)⟩)
  · exact .inr (.inr ⟨rfl, full, _, _, rfl, rfl⟩)

end

/-! The run -/

/-- A run of `p` without a limit by a machine that moves alone. -/
structure RunsProgram (p : List Instr) (s : State) : Prop where
  cells : s.cells = encodeProgram p
  valid : s.decCode = .valid
  running : s.runState = .running
  noLimit : s.stepLimit = 0
  noFault : s.faultCause = .none
  alone : s.Alone
  capacity : s.outCount ≤ 256

theorem Completes.outCount_le {i : Instr} {s t : State} (h : Completes i s t) (capacity : s.outCount ≤ 256) :
    t.outCount ≤ 256 := by
  cases h with
  | writes r x write => rw [State.outCount, complete_out, writeReg_out]; exact capacity
  | goesOn | jumps => exact capacity
  | appends v emit room =>
    rw [State.outCount, complete_out, outAppend_out, List.length_append]
    exact room

theorem Completes.program {i : Instr} {s t : State} (h : Completes i s t) :
    t.cells = s.cells ∧ t.decCode = s.decCode := by
  cases h <;> simp

section
variable {p : List Instr} {s t : State} (h : RunsProgram p s)
include h

theorem RunsProgram.machineStep_of_none (hi : p[s.pc.toNat]? = none) : machineStep s = .next (haltRun s) := by
  have past : p.length ≤ s.pc.toNat := List.getElem?_eq_none_iff.mp hi
  apply machineStep_of_halt h.running
  rw [State.insnCount, h.cells, length_encodeProgram]
  omega

theorem RunsProgram.machineStep_of_some (wellFormed : ∀ i ∈ p, i.WellFormed) {i : Instr}
    (hi : p[s.pc.toNat]? = some i) : machineStep s = execAt i s := by
  have insn : insnAt s.cells s.pc.toNat = some i := by
    rw [h.cells, insnAt_encodeProgram (by decide) wellFormed, hi]
  exact machineStep_of_insn h.running (lt_of_insnAt insn) (.inl h.noLimit) h.valid insn

theorem RunsProgram.completes {i : Instr} (step : Completes i s t) (move : machineStep s = .next t) :
    RunsProgram p t := by
  obtain ⟨cells, decCode⟩ := step.program
  obtain ⟨runState, faultCause, -⟩ := step.record
  exact {
    cells := cells.trans h.cells, valid := decCode.trans h.valid, running := runState.trans h.running
    noLimit := step.stepLimit.trans h.noLimit, noFault := faultCause.trans h.noFault
    alone := alone_of_machineStep h.alone move, capacity := step.outCount_le h.capacity }

end

/-- How a run of the machine stands at each result of the interpreter, as far as the buffer reaches. -/
def endsAs : Source.Result → RunState × FaultCause
  | .output _ => (.halted, .none)
  | .invalidJumpTarget _ => (.fault, .invalidJumpTarget)
  | .negativeShift _ => (.fault, .negativeShift)
  | .unfinished _ => (.running, .none)

/-- The machine has come to the interpreter's result, or to OUTPUT_OVERFLOW past 256 values. -/
def Agrees (r : Source.Result) (t : State) : Prop :=
  t.out.map BitVec.toNat = r.emitted.take 256 ∧
    (t.runState, t.faultCause) = if r.emitted.length ≤ 256 then endsAs r else (.fault, .outputOverflow)

theorem agrees_within {r : Source.Result} {s t : State} (capacity : s.outCount ≤ 256)
    (emitted : r.emitted = (sourceOf s).out) (out : t.out = s.out) (ends : (t.runState, t.faultCause) = endsAs r) :
    Agrees r t := by
  have within : (sourceOf s).out.length ≤ 256 := by rwa [sourceOf, List.length_map]
  rw [Agrees, emitted, List.take_of_length_le within, if_pos within, out]
  exact ⟨rfl, ends⟩

/-- One emission more than the buffer holds is the overflow, whatever follows. -/
theorem agrees_overflow {r : Source.Result} {s : State} {x : Nat} (full : s.outCount = 256)
    (emitted : (sourceOf s).out ++ [x] <+: r.emitted) : Agrees r (raiseFault .outputOverflow s) := by
  have length : (sourceOf s).out.length = 256 := by rwa [sourceOf, List.length_map]
  obtain ⟨rest, hrest⟩ := emitted
  rw [List.append_assoc] at hrest
  rw [Agrees, ← hrest, List.take_append_of_le_length length.ge, List.take_of_length_le length.le]
  refine ⟨rfl, (if_neg ?_).symm⟩
  rw [List.length_append, length, List.length_append, List.length_singleton]
  omega

/-- As many steps of the machine as the interpreter has fuel come to the same result; a machine that has stopped
stays as it is. -/
theorem run_agrees {p : List Instr} (wellFormed : ∀ i ∈ p, i.WellFormed) (fits : p.length ≤ 32) {s : State}
    (h : RunsProgram p s) (fuel : Nat) :
    ∃ t, run fuel s = .next t ∧ Agrees (Source.execute p fuel (sourceOf s)) t := by
  induction fuel generalizing s with
  | zero => exact ⟨s, rfl, agrees_within h.capacity rfl rfl (by rw [h.running, h.noFault]; rfl)⟩
  | succ fuel ih =>
    cases hi : p[(sourceOf s).pc]? with
    | none =>
      refine ⟨haltRun s, run_succ_of_stop h.alone (h.machineStep_of_none hi) nofun fuel, ?_⟩
      rw [Source.execute_of_none fuel hi]
      exact agrees_within h.capacity rfl rfl (by rw [haltRun_faultCause, h.noFault]; rfl)
    | some i =>
      have move := h.machineStep_of_some wellFormed hi
      have inside : s.pc.toNat < p.length := (List.getElem?_eq_some_iff.mp hi).1
      cases hf : faultOf i s with
      | none =>
        obtain ⟨t, step, completes⟩ := execAt_of_no_fault hf
        rw [step] at move
        rw [run_succ fuel s t (by rwa [step_of_alone h.alone]),
          Source.execute_of_next fuel hi (apply_of_completes (by omega) hf completes)]
        exact ih (h.completes completes move)
      | some c =>
        rw [execAt_of_faultOf hf] at move
        refine ⟨raiseFault c s, run_succ_of_stop h.alone move nofun fuel, ?_⟩
        rcases apply_of_faultOf hf with ⟨rfl, applied⟩ | ⟨rfl, applied⟩ | ⟨rfl, full, st, x, applied, out⟩
        · rw [Source.execute_of_negativeShift fuel hi applied]
          exact agrees_within h.capacity rfl rfl rfl
        · rw [Source.execute_of_invalidJumpTarget fuel hi applied]
          exact agrees_within h.capacity rfl rfl rfl
        · rw [Source.execute_of_next fuel hi applied]
          refine agrees_overflow (x := x) (Nat.le_antisymm h.capacity full) ?_
          rw [← out]
          exact Source.out_prefix_execute p fuel st

theorem Agrees.within {r : Source.Result} {t : State} (h : Agrees r t) (within : r.emitted.length ≤ 256) :
    (t.runState, t.faultCause) = endsAs r ∧ t.out.map BitVec.toNat = r.emitted := by
  obtain ⟨out, ends⟩ := h
  rw [if_pos within] at ends
  rw [List.take_of_length_le within] at out
  exact ⟨ends, out⟩

theorem Agrees.beyond {r : Source.Result} {t : State} (h : Agrees r t) (beyond : 256 < r.emitted.length) :
    t.runState = .fault ∧ t.faultCause = .outputOverflow ∧ t.out.map BitVec.toNat = r.emitted.take 256 := by
  obtain ⟨out, ends⟩ := h
  rw [if_neg (by omega), Prod.mk.injEq] at ends
  exact ⟨ends.1, ends.2, out⟩

end Machine
end Sys2Proof
end

section
/-! The run and the source's interpreter (40_execution_cycle.md R123). -/

namespace Sys2Proof.Machine

/-- Settles O42: the two runs side by side (`run_agrees`), read off for each result of the interpreter. -/
theorem runsFollowTheSourceInterpreter : Obligations.RunsFollowTheSourceInterpreter := by
  intro p s fuel wellFormed fits running alone cells valid pc out noLimit noFault
  have start : sourceOf s = ⟨sint s.A, sint s.B, sint s.C, 0, []⟩ := by rw [sourceOf, pc, out]; rfl
  have capacity : s.outCount ≤ 256 := by rw [State.outCount, out]; exact Nat.zero_le _
  have runs : RunsProgram p s := ⟨cells, valid, running, noLimit, noFault, alone, capacity⟩
  obtain ⟨t, hrun, agrees⟩ := run_agrees wellFormed fits runs fuel
  rw [start] at agrees
  have within := agrees.within
  have beyond := agrees.beyond
  generalize Source.execute p fuel ⟨sint s.A, sint s.B, sint s.C, 0, []⟩ = r at within beyond ⊢
  cases r with
  | output o =>
    refine ⟨fun short => ⟨fuel, t, hrun, ?_⟩, fun long => ⟨fuel, t, hrun, beyond long⟩⟩
    obtain ⟨ends, emitted⟩ := within short
    exact ⟨congrArg Prod.fst ends, emitted⟩
  | invalidJumpTarget o | negativeShift o =>
    refine ⟨fun short => ⟨fuel, t, hrun, ?_⟩, fun long => ⟨fuel, t, hrun, ?_⟩⟩
    · obtain ⟨ends, emitted⟩ := within short
      exact ⟨congrArg Prod.fst ends, congrArg Prod.snd ends, emitted⟩
    · obtain ⟨faulted, cause, -⟩ := beyond long
      exact ⟨faulted, cause⟩
  | unfinished o =>
    refine ⟨fun short => ⟨t, hrun, ?_⟩, fun long => ⟨fuel, t, hrun, ?_⟩⟩
    · obtain ⟨ends, emitted⟩ := within short
      exact ⟨congrArg Prod.fst ends, emitted⟩
    · obtain ⟨faulted, cause, -⟩ := beyond long
      exact ⟨faulted, cause⟩

end Sys2Proof.Machine
end
